-- ==== Sys2Proof/Word.lean ====
section
/-! DEFINITION. The word types of risky CORE (spec/00_scope.md R6, R12): every value is an unsigned bit vector of a
stated width. -/

namespace Sys2Proof

/-- An 8-bit value (R12): a byte of memory, a byte of a raw instruction. -/
abbrev Byte := BitVec 8

/-- A 16-bit value (R12): a register, the program counter, a memory address, a channel id or value. -/
abbrev Word16 := BitVec 16

/-- The 32-bit word `W = raw[0] ++ raw[1] ++ raw[2] ++ raw[3]` of an instruction (R90). -/
abbrev Word32 := BitVec 32

/-- A register address: 8 bits, 0 to 255, every value naming a register (R6, R32). -/
abbrev RegAddr := Byte

end Sys2Proof
end

