-- ==== Sys2Proof/Syntax.lean ====
section
/-! DEFINITION. The syntax of risky CORE: the 32 opcodes (spec/30_encoding.md R98), the decoded record (R92), the
shapes and the form of a field-presence row (R97), and `Instr`, one constructor per row of spec/opcode_table.json, each
with exactly the flags and fields its shape has. -/

namespace Sys2Proof

/-- `Opcode` (R92): the 32 operation selectors of R98. -/
inductive Opcode where
  | nop
  | jmp
  | bra
  | hlt
  | equ
  | neq
  | gtn
  | ltn
  | add
  | sub
  | mlt
  | div
  | mod
  | inc
  | dec
  | qop
  | eor
  | and
  | xor
  | not
  | lsh
  | rsh
  | rot
  | cas
  | set
  | cop
  | lod
  | sav
  | qdc
  | cdc
  | rea
  | wri
deriving DecidableEq, Repr

/-- The eight shapes of R97. -/
inductive Shape where
  | Z
  | J
  | BR
  | T
  | U
  | P
  | Q
  | L
deriving DecidableEq, Repr

/-- A row of the field-presence table (R97): which flags and fields are copied by the decoder. -/
structure Presence where
  aFlag : Bool
  bFlag : Bool
  cFlag : Bool
  r     : Bool
  a     : Bool
  b     : Bool
  l     : Bool
deriving DecidableEq, Repr

/-- The decoded record `Instruction` of R92. -/
structure Record where
  opcode : Opcode
  aFlag  : Bool
  bFlag  : Bool
  cFlag  : Bool
  r      : RegAddr
  a      : RegAddr
  b      : RegAddr
  l      : Word16
deriving DecidableEq, Repr

/-- The instructions, one constructor per opcode, each holding the flags and fields of its shape (R97) and no other: a
normalized instruction of the glossary (R15). -/
inductive Instr where
  /-- `NOP` (shape Z, R150): no operation. -/
  | nop
  /-- `JMP` (shape J, R152): jump to x[r]. -/
  | jmp (r : RegAddr)
  /-- `BRA` (shape BR, R153): branch to x[r] if x[a] is non-zero. -/
  | bra (aFlag : Bool) (r a : RegAddr)
  /-- `HLT` (shape Z, R151): halt. -/
  | hlt
  /-- `EQU` (shape T, R172): equal. -/
  | equ (aFlag bFlag cFlag : Bool) (r a b : RegAddr)
  /-- `NEQ` (shape T, R173): not equal. -/
  | neq (aFlag bFlag cFlag : Bool) (r a b : RegAddr)
  /-- `GTN` (shape T, R174): greater than. -/
  | gtn (aFlag bFlag cFlag : Bool) (r a b : RegAddr)
  /-- `LTN` (shape T, R175): less than. -/
  | ltn (aFlag bFlag cFlag : Bool) (r a b : RegAddr)
  /-- `ADD` (shape T, R192): add. -/
  | add (aFlag bFlag cFlag : Bool) (r a b : RegAddr)
  /-- `SUB` (shape T, R193): subtract. -/
  | sub (aFlag bFlag cFlag : Bool) (r a b : RegAddr)
  /-- `MLT` (shape T, R194): multiply, low 16 bits. -/
  | mlt (aFlag bFlag cFlag : Bool) (r a b : RegAddr)
  /-- `DIV` (shape T, R195): unsigned divide. -/
  | div (aFlag bFlag cFlag : Bool) (r a b : RegAddr)
  /-- `MOD` (shape T, R196): unsigned remainder. -/
  | mod (aFlag bFlag cFlag : Bool) (r a b : RegAddr)
  /-- `INC` (shape U, R197): increment. -/
  | inc (aFlag bFlag : Bool) (r a : RegAddr)
  /-- `DEC` (shape U, R198): decrement. -/
  | dec (aFlag bFlag : Bool) (r a : RegAddr)
  /-- `QOP` (shape Q, R275): query the status of the previous operation. -/
  | qop (aFlag bFlag cFlag : Bool) (r : RegAddr)
  /-- `EOR` (shape T, R222): inclusive OR. -/
  | eor (aFlag bFlag cFlag : Bool) (r a b : RegAddr)
  /-- `AND` (shape T, R223): bitwise AND. -/
  | and (aFlag bFlag cFlag : Bool) (r a b : RegAddr)
  /-- `XOR` (shape T, R224): exclusive OR. -/
  | xor (aFlag bFlag cFlag : Bool) (r a b : RegAddr)
  /-- `NOT` (shape U, R225): bitwise complement. -/
  | not (aFlag bFlag : Bool) (r a : RegAddr)
  /-- `LSH` (shape T, R226): logical shift left. -/
  | lsh (aFlag bFlag cFlag : Bool) (r a b : RegAddr)
  /-- `RSH` (shape T, R227): logical shift right. -/
  | rsh (aFlag bFlag cFlag : Bool) (r a b : RegAddr)
  /-- `ROT` (shape U, R228): rotate left by one. -/
  | rot (aFlag bFlag : Bool) (r a : RegAddr)
  /-- `CAS` (shape T, R229): cascade: shift left, filling with c_flag. -/
  | cas (aFlag bFlag cFlag : Bool) (r a b : RegAddr)
  /-- `SET` (shape L, R253): set a register to a literal. -/
  | set (aFlag : Bool) (r : RegAddr) (l : Word16)
  /-- `COP` (shape U, R254): copy a register. -/
  | cop (aFlag bFlag : Bool) (r a : RegAddr)
  /-- `LOD` (shape U, R255): load a byte. -/
  | lod (aFlag bFlag : Bool) (r a : RegAddr)
  /-- `SAV` (shape U, R256): store a byte. -/
  | sav (aFlag bFlag : Bool) (r a : RegAddr)
  /-- `QDC` (shape T, R277): query a data channel. -/
  | qdc (aFlag bFlag cFlag : Bool) (r a b : RegAddr)
  /-- `CDC` (shape T, R278): configure a data channel. -/
  | cdc (aFlag bFlag cFlag : Bool) (r a b : RegAddr)
  /-- `REA` (shape P, R279): read from a data channel. -/
  | rea (r a : RegAddr)
  /-- `WRI` (shape P, R280): write to a data channel. -/
  | wri (r a : RegAddr)
deriving DecidableEq, Repr

end Sys2Proof
end

