-- ==== Sys2Proof/Decode.lean ====
section
/-! DEFINITION. Decode and encode (spec/30_encoding.md). Fields are cut from the four bytes by position (R91, R93), the
field-presence table (R97) says which are copied (R94, R95), the literal is big-endian (R96), encode is the inverse on
normalized records and drops what a shape lacks (R103). The word-numbering helpers for spec/opcode_table.json stand at
the end. -/

namespace Sys2Proof

/-- Why bytes are not an instruction. No 4-byte instruction raises `invalidOpcode` (R99, R301); it is the defined case
that R132 asks for. -/
inductive DecodeError where
  | invalidOpcode (code : BitVec 5)
  | notFourBytes (count : Nat)
deriving DecidableEq, Repr

/-- The opcode numbers of R98. -/
def Opcode.code : Opcode → BitVec 5
  | .nop => 0#5
  | .jmp => 1#5
  | .bra => 2#5
  | .hlt => 3#5
  | .equ => 4#5
  | .neq => 5#5
  | .gtn => 6#5
  | .ltn => 7#5
  | .add => 8#5
  | .sub => 9#5
  | .mlt => 10#5
  | .div => 11#5
  | .mod => 12#5
  | .inc => 13#5
  | .dec => 14#5
  | .qop => 15#5
  | .eor => 16#5
  | .and => 17#5
  | .xor => 18#5
  | .not => 19#5
  | .lsh => 20#5
  | .rsh => 21#5
  | .rot => 22#5
  | .cas => 23#5
  | .set => 24#5
  | .cop => 25#5
  | .lod => 26#5
  | .sav => 27#5
  | .qdc => 28#5
  | .cdc => 29#5
  | .rea => 30#5
  | .wri => 31#5

/-- The dispatch table from a 5-bit opcode field to the opcode (R98), exhaustive over all 32 values (R99). -/
def opcodeOfNat : Nat → Option Opcode
  | 0 => some .nop
  | 1 => some .jmp
  | 2 => some .bra
  | 3 => some .hlt
  | 4 => some .equ
  | 5 => some .neq
  | 6 => some .gtn
  | 7 => some .ltn
  | 8 => some .add
  | 9 => some .sub
  | 10 => some .mlt
  | 11 => some .div
  | 12 => some .mod
  | 13 => some .inc
  | 14 => some .dec
  | 15 => some .qop
  | 16 => some .eor
  | 17 => some .and
  | 18 => some .xor
  | 19 => some .not
  | 20 => some .lsh
  | 21 => some .rsh
  | 22 => some .rot
  | 23 => some .cas
  | 24 => some .set
  | 25 => some .cop
  | 26 => some .lod
  | 27 => some .sav
  | 28 => some .qdc
  | 29 => some .cdc
  | 30 => some .rea
  | 31 => some .wri
  | _ + 32 => none

/-- The shape of each opcode (R97). -/
def shapeOf : Opcode → Shape
  | .nop => .Z
  | .jmp => .J
  | .bra => .BR
  | .hlt => .Z
  | .equ => .T
  | .neq => .T
  | .gtn => .T
  | .ltn => .T
  | .add => .T
  | .sub => .T
  | .mlt => .T
  | .div => .T
  | .mod => .T
  | .inc => .U
  | .dec => .U
  | .qop => .Q
  | .eor => .T
  | .and => .T
  | .xor => .T
  | .not => .U
  | .lsh => .T
  | .rsh => .T
  | .rot => .U
  | .cas => .T
  | .set => .L
  | .cop => .U
  | .lod => .U
  | .sav => .U
  | .qdc => .T
  | .cdc => .T
  | .rea => .P
  | .wri => .P

/-- The field-presence table (R97), one row per shape; the columns are `a_flag b_flag c_flag r a b l`. -/
def presenceOfShape : Shape → Presence
  | .Z => ⟨false, false, false, false, false, false, false⟩
  | .J => ⟨false, false, false, true, false, false, false⟩
  | .BR => ⟨true, false, false, true, true, false, false⟩
  | .T => ⟨true, true, true, true, true, true, false⟩
  | .U => ⟨true, true, false, true, true, false, false⟩
  | .P => ⟨false, false, false, true, true, false, false⟩
  | .Q => ⟨true, true, true, true, false, false, false⟩
  | .L => ⟨true, false, false, true, false, false, true⟩

/-- `Presence(opcode)` (R95, R97). -/
def presence (op : Opcode) : Presence := presenceOfShape (shapeOf op)

/-- `raw[0][7:3]` (R93). -/
def opcodeField (raw0 : Byte) : BitVec 5 := raw0.extractLsb' 3 5

/-- The raw flag bits `fa = raw[0][2]`, `fb = raw[0][1]`, `fc = raw[0][0]` (R93). -/
def rawFlagA (raw0 : Byte) : Bool := raw0.getLsbD 2
/-- `fb` of R93. -/
def rawFlagB (raw0 : Byte) : Bool := raw0.getLsbD 1
/-- `fc` of R93. -/
def rawFlagC (raw0 : Byte) : Bool := raw0.getLsbD 0

/-- The literal `raw[2] ++ raw[3]`, big-endian and not extended (R96). -/
def literal (raw2 raw3 : Byte) : Word16 := raw2 ++ raw3

/-- Keep a value only where the presence table marks it present; otherwise the zero R94 starts from. -/
def keep {n : Nat} (present : Bool) (v : BitVec n) : BitVec n := if present then v else 0#n

/-- `Decode` of R95 for a known opcode: copy what is present, leave the rest zero or false (R94). -/
def decodeFields (op : Opcode) (raw0 raw1 raw2 raw3 : Byte) : Record :=
  let p := presence op
  { opcode := op
    aFlag := p.aFlag && rawFlagA raw0
    bFlag := p.bFlag && rawFlagB raw0
    cFlag := p.cFlag && rawFlagC raw0
    r := keep p.r raw1
    a := keep p.a raw2
    b := keep p.b raw3
    l := keep p.l (literal raw2 raw3) }

/-- `Decode(raw[0..3])` of R95. -/
def decodeRecord (raw0 raw1 raw2 raw3 : Byte) : Except DecodeError Record :=
  match opcodeOfNat (opcodeField raw0).toNat with
  | some op => .ok (decodeFields op raw0 raw1 raw2 raw3)
  | none => .error (.invalidOpcode (opcodeField raw0))

/-- The instruction a record stands for: its opcode's constructor with the fields of its shape. -/
def instrOfRecord (i : Record) : Instr :=
  match i.opcode with
  | .nop => .nop
  | .jmp => .jmp i.r
  | .bra => .bra i.aFlag i.r i.a
  | .hlt => .hlt
  | .equ => .equ i.aFlag i.bFlag i.cFlag i.r i.a i.b
  | .neq => .neq i.aFlag i.bFlag i.cFlag i.r i.a i.b
  | .gtn => .gtn i.aFlag i.bFlag i.cFlag i.r i.a i.b
  | .ltn => .ltn i.aFlag i.bFlag i.cFlag i.r i.a i.b
  | .add => .add i.aFlag i.bFlag i.cFlag i.r i.a i.b
  | .sub => .sub i.aFlag i.bFlag i.cFlag i.r i.a i.b
  | .mlt => .mlt i.aFlag i.bFlag i.cFlag i.r i.a i.b
  | .div => .div i.aFlag i.bFlag i.cFlag i.r i.a i.b
  | .mod => .mod i.aFlag i.bFlag i.cFlag i.r i.a i.b
  | .inc => .inc i.aFlag i.bFlag i.r i.a
  | .dec => .dec i.aFlag i.bFlag i.r i.a
  | .qop => .qop i.aFlag i.bFlag i.cFlag i.r
  | .eor => .eor i.aFlag i.bFlag i.cFlag i.r i.a i.b
  | .and => .and i.aFlag i.bFlag i.cFlag i.r i.a i.b
  | .xor => .xor i.aFlag i.bFlag i.cFlag i.r i.a i.b
  | .not => .not i.aFlag i.bFlag i.r i.a
  | .lsh => .lsh i.aFlag i.bFlag i.cFlag i.r i.a i.b
  | .rsh => .rsh i.aFlag i.bFlag i.cFlag i.r i.a i.b
  | .rot => .rot i.aFlag i.bFlag i.r i.a
  | .cas => .cas i.aFlag i.bFlag i.cFlag i.r i.a i.b
  | .set => .set i.aFlag i.r i.l
  | .cop => .cop i.aFlag i.bFlag i.r i.a
  | .lod => .lod i.aFlag i.bFlag i.r i.a
  | .sav => .sav i.aFlag i.bFlag i.r i.a
  | .qdc => .qdc i.aFlag i.bFlag i.cFlag i.r i.a i.b
  | .cdc => .cdc i.aFlag i.bFlag i.cFlag i.r i.a i.b
  | .rea => .rea i.r i.a
  | .wri => .wri i.r i.a

/-- The normalized record of an instruction: fields and flags its shape lacks are zero and false (R94). -/
def recordOfInstr : Instr → Record
  | .nop => ⟨.nop, false, false, false, 0#8, 0#8, 0#8, 0#16⟩
  | .jmp r => ⟨.jmp, false, false, false, r, 0#8, 0#8, 0#16⟩
  | .bra aFlag r a => ⟨.bra, aFlag, false, false, r, a, 0#8, 0#16⟩
  | .hlt => ⟨.hlt, false, false, false, 0#8, 0#8, 0#8, 0#16⟩
  | .equ aFlag bFlag cFlag r a b => ⟨.equ, aFlag, bFlag, cFlag, r, a, b, 0#16⟩
  | .neq aFlag bFlag cFlag r a b => ⟨.neq, aFlag, bFlag, cFlag, r, a, b, 0#16⟩
  | .gtn aFlag bFlag cFlag r a b => ⟨.gtn, aFlag, bFlag, cFlag, r, a, b, 0#16⟩
  | .ltn aFlag bFlag cFlag r a b => ⟨.ltn, aFlag, bFlag, cFlag, r, a, b, 0#16⟩
  | .add aFlag bFlag cFlag r a b => ⟨.add, aFlag, bFlag, cFlag, r, a, b, 0#16⟩
  | .sub aFlag bFlag cFlag r a b => ⟨.sub, aFlag, bFlag, cFlag, r, a, b, 0#16⟩
  | .mlt aFlag bFlag cFlag r a b => ⟨.mlt, aFlag, bFlag, cFlag, r, a, b, 0#16⟩
  | .div aFlag bFlag cFlag r a b => ⟨.div, aFlag, bFlag, cFlag, r, a, b, 0#16⟩
  | .mod aFlag bFlag cFlag r a b => ⟨.mod, aFlag, bFlag, cFlag, r, a, b, 0#16⟩
  | .inc aFlag bFlag r a => ⟨.inc, aFlag, bFlag, false, r, a, 0#8, 0#16⟩
  | .dec aFlag bFlag r a => ⟨.dec, aFlag, bFlag, false, r, a, 0#8, 0#16⟩
  | .qop aFlag bFlag cFlag r => ⟨.qop, aFlag, bFlag, cFlag, r, 0#8, 0#8, 0#16⟩
  | .eor aFlag bFlag cFlag r a b => ⟨.eor, aFlag, bFlag, cFlag, r, a, b, 0#16⟩
  | .and aFlag bFlag cFlag r a b => ⟨.and, aFlag, bFlag, cFlag, r, a, b, 0#16⟩
  | .xor aFlag bFlag cFlag r a b => ⟨.xor, aFlag, bFlag, cFlag, r, a, b, 0#16⟩
  | .not aFlag bFlag r a => ⟨.not, aFlag, bFlag, false, r, a, 0#8, 0#16⟩
  | .lsh aFlag bFlag cFlag r a b => ⟨.lsh, aFlag, bFlag, cFlag, r, a, b, 0#16⟩
  | .rsh aFlag bFlag cFlag r a b => ⟨.rsh, aFlag, bFlag, cFlag, r, a, b, 0#16⟩
  | .rot aFlag bFlag r a => ⟨.rot, aFlag, bFlag, false, r, a, 0#8, 0#16⟩
  | .cas aFlag bFlag cFlag r a b => ⟨.cas, aFlag, bFlag, cFlag, r, a, b, 0#16⟩
  | .set aFlag r l => ⟨.set, aFlag, false, false, r, 0#8, 0#8, l⟩
  | .cop aFlag bFlag r a => ⟨.cop, aFlag, bFlag, false, r, a, 0#8, 0#16⟩
  | .lod aFlag bFlag r a => ⟨.lod, aFlag, bFlag, false, r, a, 0#8, 0#16⟩
  | .sav aFlag bFlag r a => ⟨.sav, aFlag, bFlag, false, r, a, 0#8, 0#16⟩
  | .qdc aFlag bFlag cFlag r a b => ⟨.qdc, aFlag, bFlag, cFlag, r, a, b, 0#16⟩
  | .cdc aFlag bFlag cFlag r a b => ⟨.cdc, aFlag, bFlag, cFlag, r, a, b, 0#16⟩
  | .rea r a => ⟨.rea, false, false, false, r, a, 0#8, 0#16⟩
  | .wri r a => ⟨.wri, false, false, false, r, a, 0#8, 0#16⟩

/-- The opcode of an instruction. -/
def opcodeOf (i : Instr) : Opcode := (recordOfInstr i).opcode

/-- Decode four bytes to an instruction; a list of any other length is rejected by name (R102: an instruction is four
bytes). -/
def decode : List Byte → Except DecodeError Instr
  | [raw0, raw1, raw2, raw3] => (decodeRecord raw0 raw1 raw2 raw3).map instrOfRecord
  | bytes => .error (.notFourBytes bytes.length)

/-- Byte 0 of an encoded instruction: the opcode in the top five bits, the flags `A B C` below (R91, R103). -/
def encodeByte0 (op : Opcode) (fa fb fc : Bool) : Byte :=
  op.code ++ BitVec.ofBool fa ++ BitVec.ofBool fb ++ BitVec.ofBool fc

/-- `Encode` of R103: fields and flags absent from the opcode's shape are dropped and encoded as 0. -/
def encodeRecord (i : Record) : List Byte :=
  let p := presence i.opcode
  let raw0 := encodeByte0 i.opcode (p.aFlag && i.aFlag) (p.bFlag && i.bFlag) (p.cFlag && i.cFlag)
  if p.l then [raw0, keep p.r i.r, i.l.extractLsb' 8 8, i.l.extractLsb' 0 8]
  else [raw0, keep p.r i.r, keep p.a i.a, keep p.b i.b]

/-- The four bytes of an instruction (R103). -/
def encode (i : Instr) : List Byte := encodeRecord (recordOfInstr i)

/-- The bits of `W` that an opcode of this shape reads: every bit but those marked `x` in R97. -/
def careMask : Shape → Word32
  | .Z  => 0xF8000000#32
  | .J  => 0xF8FF0000#32
  | .BR => 0xFCFFFF00#32
  | .T  => 0xFFFFFFFF#32
  | .U  => 0xFEFFFF00#32
  | .P  => 0xF8FFFF00#32
  | .Q  => 0xFFFF0000#32
  | .L  => 0xFCFFFFFF#32

/-- The flags of R101 (the list of D7 in spec/92_eei_decisions.md): in the opcode's shape, but with no meaning. -/
def ignoredFlags : Opcode → Word32
  | .equ | .neq | .gtn | .ltn | .add | .sub | .mlt | .div | .mod => 0x03000000#32
  | .eor | .and | .xor | .lsh | .rsh => 0x03000000#32
  | .cas => 0x02000000#32
  | .inc | .dec | .not | .rot => 0x02000000#32
  | .set => 0x04000000#32
  | .cop | .lod | .sav => 0x06000000#32
  | .nop | .jmp | .bra | .hlt | .qop | .qdc | .cdc | .rea | .wri => 0x00000000#32

/-- The word `W = raw[0] ++ raw[1] ++ raw[2] ++ raw[3]` (R90). -/
def wordOfBytes (raw0 raw1 raw2 raw3 : Byte) : Word32 := raw0 ++ raw1 ++ raw2 ++ raw3

/-- The four bytes of a word, `raw[0]` first (R90). -/
def bytesOfWord (w : Word32) : List Byte :=
  [w.extractLsb' 24 8, w.extractLsb' 16 8, w.extractLsb' 8 8, w.extractLsb' 0 8]

/-- The option `STRICT_FLAGS` (R101, D34) on one word: true when no flag of `ignoredFlags` and no `x` bit is set. -/
def strictFlagsOk (w : Word32) : Bool :=
  match opcodeOfNat (w.extractLsb' 27 5).toNat with
  | some op => w &&& (~~~ careMask (shapeOf op) ||| ignoredFlags op) == 0#32
  | none => false

/-- The bytes of a table word: bits from `nbits` up are 0, bit 0 is the least significant bit of `W`, and `W[31:24]`
lies at the lowest address (R90). -/
def tableBytes (nbits w : Nat) : List Byte := bytesOfWord (BitVec.ofNat 32 (w % 2 ^ nbits))

/-- The instruction the decoder reads from a word of spec/opcode_table.json. -/
def decodeTableWord (nbits w : Nat) : Option Instr := (decode (tableBytes nbits w)).toOption

end Sys2Proof
end

