-- ==== Sys2Proof/Config.lean ====
section
/-! DEFINITION. The fixed implementation parameters (spec/00_scope.md R6), the messages of the data-channel port
(spec/45_status_channel.md R270), and the block's open parameters (R7) as constants WITHOUT A BODY, so that nothing can
be proved about the values they give. -/

namespace Sys2Proof

/-- What a data-channel request asks (R270): `QUERY`, `CONFIGURE`, `READ` or `WRITE`. -/
inductive PortOp where
  | query
  | configure
  | read
  | write
deriving DecidableEq, Repr

/-- The three flag bits of a request (R270): `a_flag`, `b_flag`, `c_flag`; all false for `REA` and `WRI`. -/
structure PortFlags where
  aFlag : Bool
  bFlag : Bool
  cFlag : Bool
deriving DecidableEq, Repr

/-- One request to the data-channel port (R270). -/
structure PortRequest where
  op    : PortOp
  id    : Word16
  value : Word16
  flags : PortFlags
deriving DecidableEq, Repr

/-- One response of the data-channel port (R270): success with a 16-bit datum, or failure. -/
inductive PortResponse where
  | ok (data : Word16)
  | fail
deriving DecidableEq, Repr, Inhabited

namespace Config

/-- `MEMSIZE` (R6): memory has 65,536 bytes. -/
abbrev memSize : Nat := 65536

/-- `NREG` (R6): 256 general registers. -/
abbrev numRegs : Nat := 256

/-- The fixed instruction length in bytes (R6, R90). -/
abbrev instrBytes : Nat := 4

/-- The highest address at which an instruction can be fetched (R65): `pc + 4 <= 65536`. -/
abbrev lastFetch : Nat := 65532

/-- The open parameter `PORT` (R7, R271): the answer of the external port to a request. A FREE VALUE: no body, no rule
constrains it. It may depend on which draw of the run this is and on the requests already sent (newest first).
Log entry 2. -/
opaque portAnswer (draw : Nat) (history : List PortRequest) (request : PortRequest) : PortResponse

/-- The open parameter `QOP_STATUS` (R7, R275): the value `QOP` writes, "any `Word16`, chosen afresh at each execution".
A FREE VALUE: no body; `draw` is the counter that makes each execution's draw a fresh one. Log entry 1. -/
opaque qopStatus (draw : Nat) (aFlag bFlag cFlag : Bool) : Word16

end Config

end Sys2Proof
end

