-- ==== Sys2Proof/Machine/Flags.lean ====
section
/-! DEFINITION. Flags. The block has no flag register, condition codes or predicates (spec/10_state.md R41): the flags
are three bits of one instruction. What is computed with them: the relational sentinels (R170), the fill of `CAS`
(R229), and the flag bits of a port request (R270). -/

namespace Sys2Proof.Machine

/-- `TRUE16` and `FALSE16` (R170): a relational result. -/
def truth16 (holds : Bool) : Word16 := if holds then 0xFFFF#16 else 0x0000#16

/-- `fill` of `CAS` (R229): sixteen copies of `c_flag`. -/
def carryFill (cFlag : Bool) : Word16 := if cFlag then 0xFFFF#16 else 0x0000#16

/-- The flag bits of a request that forwards none (R270: 0 for `REA` and `WRI`). -/
def noPortFlags : PortFlags := ⟨false, false, false⟩

end Sys2Proof.Machine
end

