-- ==== Sys2Proof/Machine/Operands.lean ====
section
/-! DEFINITION. Operand forms (spec/30_encoding.md R106: register direct, or the 16-bit literal whole) and the one
width logic, `Opnd` (spec/40_engine_and_control.md R140), with the zero extension and the cut to the low byte it uses. -/

namespace Sys2Proof.Machine

/-- `zext_16` of a byte (R13). -/
def zext16 (b : Byte) : Word16 := b.setWidth 16

/-- `v[7:0]` (R11): the low byte of a register value. -/
def lowByte (v : Word16) : Byte := v.extractLsb' 0 8

/-- Operand preparation `Opnd(v, w)` (R140): in narrow mode the low 8 bits, zero-extended; otherwise the whole value. -/
def opnd (v : Word16) (w : Bool) : Word16 := if w then zext16 (lowByte v) else v

end Sys2Proof.Machine
end

