-- ==== Sys2Proof/Machine/State.lean ====
section
/-! DEFINITION. The state of risky CORE (spec/10_state.md R30 to R45): the register file, the program counter, memory,
the run state and the fault record, and beside them the model's own fields for the open parameters `PORT` and
`QOP_STATUS` (spec/00_scope.md R7; log entries 1 and 2). -/

namespace Sys2Proof.Machine

/-- The run state (R38). -/
inductive RunState where
  | running
  | halted
deriving DecidableEq, Repr

/-- The causes `fault_cause` can hold (R39, R300). Codes 5 to 7 are never written, so they have no constructor. -/
inductive FaultCause where
  /-- `NONE`: no fault. -/
  | none
  /-- `DECODE_ERROR`: a defined case that no instruction word raises (R301). -/
  | decodeError
  /-- `DIVIDE_BY_ZERO`: raised by `DIV` and `MOD` (R305). -/
  | divideByZero
  /-- `OUT_OF_BOUNDS`: raised by the fetch of any step at `pc > 65532` (R302). -/
  | outOfBounds
  /-- `PORT_FAULT`: raised by `QDC`, `CDC`, `REA` and `WRI` on a `Fail` response (R306). -/
  | portFault
deriving DecidableEq, Repr

/-- Why the MODEL stops with a fault: never. Every fault of the spec halts the block and is recorded (R304), so it is a
next state of the step, and no step leaves this type's outcome (log entry 3). Safe: nothing is lost by it. -/
inductive Fault
deriving DecidableEq, Repr

/-- Why the model refuses. -/
inductive Refusal where
  /-- Raised by `exec` alone, for an instruction that has no meaning in the model: no arm does. Safe. -/
  | notModelled (mnemonic : String)
  /-- Raised by `stepStrict` alone, the step under the option `STRICT_FLAGS = true` (R101, D34), for a word that sets a
  flag without a meaning or a don't-care bit. `step` never raises it. Safe: it only stops where the block goes on. -/
  | strictFlags (raw : Word32)
deriving DecidableEq, Repr

/-- Memory `MEM` (R43): the pairs of address and byte, addresses strictly rising, no entry equal to what an unlisted
address reads as (`unlistedByte` in Machine/Ops.lean). The form is `Memory.wf`. -/
abbrev Memory := List Host.Cell

/-- The state of the block. -/
structure State where
  /-- The register file `x[0]` to `x[255]` (R30). -/
  regs : Vector Word16 256
  /-- The program counter (R36). -/
  pc : Word16
  /-- Memory (R43). -/
  mem : Memory
  /-- The run state (R38). -/
  run : RunState
  /-- `fault_cause` (R39). -/
  faultCause : FaultCause
  /-- `fault_pc` (R39). -/
  faultPc : Word16
  /-- `fault_raw` (R39). -/
  faultRaw : Word32
  /-- The MODEL's own: the requests sent to the data-channel port so far, newest first (R270, R271). -/
  portLog : List PortRequest
  /-- The MODEL's own: answers the environment has lined up for the port's next requests; when there is none left, the
  answer is the free value `Config.portAnswer`. -/
  portAnswers : List PortResponse
  /-- The MODEL's own: values the environment has lined up for the next executions of `QOP`; when there is none left, the
  value is the free value `Config.qopStatus`. -/
  qopAnswers : List Word16
  /-- The MODEL's own: how many open values have been drawn, which makes every draw a fresh one (R275). -/
  draws : Nat
deriving DecidableEq, Repr

/-- The block after power-on with the all-zero image (R45, R340): registers 0, `pc` 0, memory zero, Running, the fault
record clear. The model's own fields start empty (log entries 1 and 2). -/
def State.reset : State where
  regs := Vector.replicate 256 0#16
  pc := 0#16
  mem := []
  run := .running
  faultCause := .none
  faultPc := 0#16
  faultRaw := 0#32
  portLog := []
  portAnswers := []
  qopAnswers := []
  draws := 0

end Sys2Proof.Machine
end

