-- ==== Sys2Proof/Machine/Alu.lean ====
section
/-! DEFINITION. The ALU (spec/40_engine_and_control.md R139 to R142): a pure function of register values and the
instruction's flags that gives a result plus an optional fault. Only the ALU applies the width flag (and `BRA`, through the
same `opnd`). The operations act on prepared operands `A` and `B`. -/

namespace Sys2Proof.Machine

/-- "A result value plus an optional fault" (R139). -/
abbrev AluResult := Except FaultCause Word16

/-- A two-operand ALU instruction: `A op B` with both operands prepared by the width flag (R140, R142). -/
def alu2 (op : Word16 → Word16 → AluResult) (aFlag : Bool) (va vb : Word16) : AluResult :=
  op (opnd va aFlag) (opnd vb aFlag)

/-- A one-operand ALU instruction: `op A` (R142). -/
def alu1 (op : Word16 → AluResult) (aFlag : Bool) (va : Word16) : AluResult := op (opnd va aFlag)

/-- `A = B` (R172). -/
def aluEqu (A B : Word16) : AluResult := .ok (truth16 (A == B))

/-- `A != B` (R173). -/
def aluNeq (A B : Word16) : AluResult := .ok (truth16 (A != B))

/-- Unsigned `A > B` (R174). -/
def aluGtn (A B : Word16) : AluResult := .ok (truth16 (BitVec.ult B A))

/-- Unsigned `A < B` (R175). -/
def aluLtn (A B : Word16) : AluResult := .ok (truth16 (BitVec.ult A B))

/-- `(A + B) mod 2^16` (R192). -/
def aluAdd (A B : Word16) : AluResult := .ok (A + B)

/-- `(A - B) mod 2^16` (R193). -/
def aluSub (A B : Word16) : AluResult := .ok (A - B)

/-- `(A * B) mod 2^16` (R194). -/
def aluMlt (A B : Word16) : AluResult := .ok (A * B)

/-- `floor(A / B)`, unsigned; the fault `DIVIDE_BY_ZERO` when the prepared `B` is 0 (R191, R195). -/
def aluDiv (A B : Word16) : AluResult := if B = 0#16 then .error .divideByZero else .ok (A.udiv B)

/-- `A - B * floor(A / B)`, unsigned; the fault `DIVIDE_BY_ZERO` when the prepared `B` is 0 (R191, R196). -/
def aluMod (A B : Word16) : AluResult := if B = 0#16 then .error .divideByZero else .ok (A.umod B)

/-- `(A + 1) mod 2^16` (R197). -/
def aluInc (A : Word16) : AluResult := .ok (A + 1#16)

/-- `(A - 1) mod 2^16` (R198). -/
def aluDec (A : Word16) : AluResult := .ok (A - 1#16)

/-- Inclusive OR (R222). -/
def aluEor (A B : Word16) : AluResult := .ok (A ||| B)

/-- Bitwise AND (R223). -/
def aluAnd (A B : Word16) : AluResult := .ok (A &&& B)

/-- Exclusive OR (R224). -/
def aluXor (A B : Word16) : AluResult := .ok (A ^^^ B)

/-- The complement over 16 bits (R225). -/
def aluNot (A : Word16) : AluResult := .ok (~~~ A)

/-- Logical shift left by the whole prepared `B`; 16 or more shifts every bit out (R221, R226). -/
def aluLsh (A B : Word16) : AluResult := .ok (if 16 ≤ B.toNat then 0#16 else A <<< B.toNat)

/-- Logical shift right by the whole prepared `B`; 16 or more shifts every bit out (R221, R227). -/
def aluRsh (A B : Word16) : AluResult := .ok (if 16 ≤ B.toNat then 0#16 else A >>> B.toNat)

/-- Rotate left by one in a 16-bit ring (R228). -/
def aluRot (A : Word16) : AluResult := .ok ((A <<< 1) ||| (A >>> 15))

/-- Cascade (R229): shift left by the whole prepared `B`, vacated bits taking `c_flag`. -/
def aluCas (cFlag : Bool) (A B : Word16) : AluResult :=
  .ok (if 16 ≤ B.toNat then carryFill cFlag
       else (A <<< B.toNat) ||| (carryFill cFlag >>> (16 - B.toNat)))

end Sys2Proof.Machine
end

