-- ==== Sys2Proof/Machine/Ops.lean ====
section
/-! DEFINITION. The named operations: memory (spec/20_memory.md R60, R61), registers (spec/10_state.md R30 to R32), the
effect record and its commit (spec/40_engine_and_control.md R135, R136), taking a fault (spec/60_exceptions.md R303,
R304) and the one way back, Reset (R308, R343), the fetch (R131), the port transaction (spec/45_status_channel.md R270
to R273) and the draw of `QOP` (R275). -/

namespace Sys2Proof.Machine

/-- The outcomes of a step over this machine. -/
abbrev Out := Host.Outcome State Fault Refusal

/-! Memory -/

/-- What an unlisted address reads as: memory is zero after `Create`, before loading (R45, R340). -/
def unlistedByte : Byte := 0#8

/-- The byte at an address. -/
def Memory.read : Memory → Nat → Byte
  | [], _ => unlistedByte
  | (k, c) :: m, addr => if addr = k then c else Memory.read m addr

/-- Memory with one byte replaced, in the canonical form. -/
def Memory.write : Memory → Nat → Byte → Memory
  | [], addr, v => if v = unlistedByte then [] else [(addr, v)]
  | (k, c) :: m, addr, v =>
    if addr < k then (if v = unlistedByte then (k, c) :: m else (addr, v) :: (k, c) :: m)
    else if addr = k then (if v = unlistedByte then m else (addr, v) :: m)
    else (k, c) :: Memory.write m addr v

/-- The canonical form from an address on: addresses strictly rising and below 65,536, no entry that an unlisted address
reads as anyway. -/
def Memory.wfFrom : Nat → Memory → Bool
  | _, [] => true
  | lo, (k, c) :: m =>
    decide (lo ≤ k) && decide (k < Config.memSize) && decide (c ≠ unlistedByte) && Memory.wfFrom (k + 1) m

/-- The canonical form of memory. -/
def Memory.wf (m : Memory) : Bool := Memory.wfFrom 0 m

/-- `MemRead(addr, n)` (R60) as the list of its bytes, `MEM[addr]` (the most significant) first. -/
def memRead (m : Memory) (addr : Nat) : Nat → List Byte
  | 0 => []
  | n + 1 => m.read addr :: memRead m (addr + 1) n

/-- `MemWrite(addr, n, v)` (R61) with `v` as the list of its `n` bytes, the most significant at `MEM[addr]`. -/
def memWrite (m : Memory) (addr : Nat) : List Byte → Memory
  | [] => m
  | b :: bs => memWrite (m.write addr b) (addr + 1) bs

/-- The memory an image fills (R341): byte `i` of the list at `addr + i`. -/
def Memory.ofImage (addr : Nat) : List Byte → Memory
  | [] => []
  | b :: bs => if b = unlistedByte then Memory.ofImage (addr + 1) bs else (addr, b) :: Memory.ofImage (addr + 1) bs

/-! Registers -/

/-- `x[i]` (R30): every address names a register (R32), and none is hardwired (R31). -/
def readReg (s : State) (i : RegAddr) : Word16 := s.regs[i.toNat]'i.isLt

/-- The register file after `x[i] <- v` (R31). -/
def setReg (regs : Vector Word16 256) (i : RegAddr) (v : Word16) : Vector Word16 256 := regs.set i.toNat v i.isLt

/-- `x[i] <- v` on a state. -/
def writeReg (s : State) (i : RegAddr) (v : Word16) : State := { s with regs := setReg s.regs i v }

/-! Fetch -/

/-- The default next address `(pc + 4) mod 65536` (R133). -/
def nextPc (pc : Word16) : Word16 := pc + 4#16

/-- The fetch (R131): the 4 bytes at `pc`, or none when fewer than 4 bytes remain (`pc > 65532`, R65). -/
def fetch (s : State) : Option (List Byte) :=
  if Config.lastFetch < s.pc.toNat then none else some (memRead s.mem s.pc.toNat Config.instrBytes)

/-- The word of four bytes; 0 where there are not four. -/
def wordOfList : List Byte → Word32
  | [raw0, raw1, raw2, raw3] => wordOfBytes raw0 raw1 raw2 raw3
  | _ => 0#32

/-- The raw instruction at `pc` as a word, `raw[0]` in bits 31:24; 0 when none can be fetched (R39). A step changes no
memory before it faults, so this is the word the step fetched (log entry 4). -/
def rawAtPc (s : State) : Word32 :=
  match fetch s with
  | some raw => wordOfList raw
  | none => 0#32

/-! The effect record and its commit -/

/-- The effect record of R135, less its `port` part: a request is sent while the arm executes (R271) and is not undone
by a fault (R272), so it is no part of what a fault discards. -/
structure Effect where
  wreg   : Option (RegAddr × Word16)
  wmem   : Option (Word16 × Byte)
  pcNext : Word16
  halt   : Bool
deriving DecidableEq, Repr

/-- The effect that only advances: `pc_next = next` (R133, R135). -/
def advance (s : State) : Effect := ⟨none, none, nextPc s.pc, false⟩

/-- The register file after an effect (R136). -/
def commitRegs (regs : Vector Word16 256) : Option (RegAddr × Word16) → Vector Word16 256
  | none => regs
  | some (i, v) => setReg regs i v

/-- Memory after an effect (R136). -/
def commitMem (m : Memory) : Option (Word16 × Byte) → Memory
  | none => m
  | some (addr, v) => memWrite m addr.toNat [v]

/-- `Commit(s, eff)` (R136): apply `wreg` and `wmem` and set `pc`; when `halt`, go Halted and leave `pc`. -/
def commit (s : State) (e : Effect) : State :=
  { s with
    regs := commitRegs s.regs e.wreg
    mem := commitMem s.mem e.wmem
    pc := if e.halt then s.pc else e.pcNext
    run := if e.halt then .halted else s.run }

/-- An instruction that completes with an effect. -/
def complete (s : State) (e : Effect) : Out := .next (commit s e)

/-- `x[r] <- v; pc <- next`. -/
def completeWrite (s : State) (r : RegAddr) (v : Word16) : Out := complete s { advance s with wreg := some (r, v) }

/-! Taking a fault, and the way back -/

/-- Fault entry (R304) with the precision of R303: the block halts, the record names the cause, the `pc` and the raw
instruction (0 for `OUT_OF_BOUNDS`); registers, memory and `pc` keep their values. -/
def raiseFault (s : State) (c : FaultCause) : State :=
  { s with
    run := .halted
    faultCause := c
    faultPc := s.pc
    faultRaw := if c = .outOfBounds then 0#32 else rawAtPc s }

/-- `raise F` (R13): the step ends with the fault's entry as its next state. -/
def raise (s : State) (c : FaultCause) : Out := .next (raiseFault s c)

/-- `Reset` (R343), the only way out of Halted (R308): registers, `pc`, run state and fault record cleared, memory kept.
What the environment keeps (the port's history and answers, the draws made) is not the block's and stays (log entry 2). -/
def applyReset (s : State) : State :=
  { s with
    regs := State.reset.regs
    pc := State.reset.pc
    run := State.reset.run
    faultCause := State.reset.faultCause
    faultPc := State.reset.faultPc
    faultRaw := State.reset.faultRaw }

/-! The ALU's way into the state -/

/-- Write an ALU result to `x[r]` and advance, or take the ALU's fault (R136, R139, R142). -/
def finishAlu (s : State) (r : RegAddr) : AluResult → Out
  | .ok v => completeWrite s r v
  | .error c => raise s c

/-- A two-operand ALU instruction (R142): operands from `x[a]` and `x[b]`, the result to `x[r]`. -/
def runAlu2 (op : Word16 → Word16 → AluResult) (aFlag : Bool) (r a b : RegAddr) (s : State) : Out :=
  finishAlu s r (alu2 op aFlag (readReg s a) (readReg s b))

/-- A one-operand ALU instruction (R142). -/
def runAlu1 (op : Word16 → AluResult) (aFlag : Bool) (r a : RegAddr) (s : State) : Out :=
  finishAlu s r (alu1 op aFlag (readReg s a))

/-! The data-channel port and the status query -/

/-- The port's answer to a request (R271): the next answer the environment has lined up, else the free value. -/
def portResponse (s : State) (req : PortRequest) : PortResponse :=
  match s.portAnswers with
  | answer :: _ => answer
  | [] => Config.portAnswer s.draws s.portLog req

/-- Sending a request (R270, R271): it joins the history, and its answer is used up. -/
def sendRequest (s : State) (req : PortRequest) : State :=
  { s with portLog := req :: s.portLog, portAnswers := s.portAnswers.tail, draws := s.draws + 1 }

/-- A port transaction (R271): on `Ok(data)` the instruction goes on from the state after the request; on `Fail` it
raises `PORT_FAULT` there, the request staying sent (R272). -/
def transact (s : State) (req : PortRequest) (onOk : State → Word16 → State) : Out :=
  .next (match portResponse s req with
    | .ok data => onOk (sendRequest s req) data
    | .fail => raiseFault (sendRequest s req) .portFault)

/-- The value `QOP_STATUS(a_flag, b_flag, c_flag)` of this execution (R275): the next value the environment has lined up,
else the free value. -/
def qopValue (s : State) (aFlag bFlag cFlag : Bool) : Word16 :=
  match s.qopAnswers with
  | v :: _ => v
  | [] => Config.qopStatus s.draws aFlag bFlag cFlag

/-- The state after a draw of `QOP_STATUS`. -/
def drawQop (s : State) : State := { s with qopAnswers := s.qopAnswers.tail, draws := s.draws + 1 }

end Sys2Proof.Machine
end

