-- ==== Sys2Proof/Machine/Arithmetic.lean ====
section
/-! DEFINITION. The arithmetic instructions (spec/42_arithmetic.md R190 to R199). `b_flag` and `c_flag` are decoded and
ignored (R199). -/

namespace Sys2Proof.Machine

/-- `ADD` (R192): `x[r] <- (A + B) mod 2^16`. -/
def execAdd (aFlag _bFlag _cFlag : Bool) (r a b : RegAddr) (s : State) : Out :=
  runAlu2 aluAdd aFlag r a b s

/-- `SUB` (R193): `x[r] <- (A - B) mod 2^16`. -/
def execSub (aFlag _bFlag _cFlag : Bool) (r a b : RegAddr) (s : State) : Out :=
  runAlu2 aluSub aFlag r a b s

/-- `MLT` (R194): `x[r] <- (A * B) mod 2^16`. -/
def execMlt (aFlag _bFlag _cFlag : Bool) (r a b : RegAddr) (s : State) : Out :=
  runAlu2 aluMlt aFlag r a b s

/-- `DIV` (R195): `x[r] <- floor(A / B)`; `DIVIDE_BY_ZERO` when the prepared `B` is 0. -/
def execDiv (aFlag _bFlag _cFlag : Bool) (r a b : RegAddr) (s : State) : Out :=
  runAlu2 aluDiv aFlag r a b s

/-- `MOD` (R196): `x[r] <- A - B * floor(A / B)`; `DIVIDE_BY_ZERO` when the prepared `B` is 0. -/
def execMod (aFlag _bFlag _cFlag : Bool) (r a b : RegAddr) (s : State) : Out :=
  runAlu2 aluMod aFlag r a b s

/-- `INC` (R197): `x[r] <- (A + 1) mod 2^16`. -/
def execInc (aFlag _bFlag : Bool) (r a : RegAddr) (s : State) : Out :=
  runAlu1 aluInc aFlag r a s

/-- `DEC` (R198): `x[r] <- (A - 1) mod 2^16`. -/
def execDec (aFlag _bFlag : Bool) (r a : RegAddr) (s : State) : Out :=
  runAlu1 aluDec aFlag r a s

end Sys2Proof.Machine
end

