-- ==== Sys2Proof/Machine/Bitwise.lean ====
section
/-! DEFINITION. The bitwise and shift instructions (spec/43_bitwise.md R220 to R229). `b_flag` is decoded and ignored by all,
`c_flag` by all but `CAS` (R220). -/

namespace Sys2Proof.Machine

/-- `EOR` (R222): `x[r] <- A | B`, the inclusive OR. -/
def execEor (aFlag _bFlag _cFlag : Bool) (r a b : RegAddr) (s : State) : Out :=
  runAlu2 aluEor aFlag r a b s

/-- `AND` (R223): `x[r] <- A & B`. -/
def execAnd (aFlag _bFlag _cFlag : Bool) (r a b : RegAddr) (s : State) : Out :=
  runAlu2 aluAnd aFlag r a b s

/-- `XOR` (R224): `x[r] <- A ^ B`. -/
def execXor (aFlag _bFlag _cFlag : Bool) (r a b : RegAddr) (s : State) : Out :=
  runAlu2 aluXor aFlag r a b s

/-- `NOT` (R225): `x[r] <- (~A) & 0xFFFF`. -/
def execNot (aFlag _bFlag : Bool) (r a : RegAddr) (s : State) : Out :=
  runAlu1 aluNot aFlag r a s

/-- `LSH` (R226): `x[r] <- (B >= 16) ? 0 : (A << B) mod 2^16`. -/
def execLsh (aFlag _bFlag _cFlag : Bool) (r a b : RegAddr) (s : State) : Out :=
  runAlu2 aluLsh aFlag r a b s

/-- `RSH` (R227): `x[r] <- (B >= 16) ? 0 : floor(A / 2^B)`. -/
def execRsh (aFlag _bFlag _cFlag : Bool) (r a b : RegAddr) (s : State) : Out :=
  runAlu2 aluRsh aFlag r a b s

/-- `ROT` (R228): `x[r] <- ((A << 1) | (A >> 15)) & 0xFFFF`. -/
def execRot (aFlag _bFlag : Bool) (r a : RegAddr) (s : State) : Out :=
  runAlu1 aluRot aFlag r a s

/-- `CAS` (R229): shift `A` left by `B`, vacated bits taking `c_flag`. -/
def execCas (aFlag _bFlag cFlag : Bool) (r a b : RegAddr) (s : State) : Out :=
  runAlu2 (aluCas cFlag) aFlag r a b s

end Sys2Proof.Machine
end

