-- ==== Sys2Proof/Machine/Channel.lean ====
section
/-! DEFINITION. The status query and the data-channel instructions (spec/45_status_channel.md R270 to R280). Register
values go to the port uncut (R273). -/

namespace Sys2Proof.Machine

/-- `x[r] <- resp.data; pc <- next`, the end of `QDC`, `CDC` and `REA` on success. -/
def storeData (r : RegAddr) (s : State) (data : Word16) : State :=
  commit s { advance s with wreg := some (r, data) }

/-- `QOP` (R275): `x[r] <- QOP_STATUS(a_flag, b_flag, c_flag)`, a free value. -/
def execQop (aFlag bFlag cFlag : Bool) (r : RegAddr) (s : State) : Out :=
  completeWrite (drawQop s) r (qopValue s aFlag bFlag cFlag)

/-- `QDC` (R277): `QUERY` with `id = x[a]`, `value = x[b]`, the flags forwarded; the answer to `x[r]`. -/
def execQdc (aFlag bFlag cFlag : Bool) (r a b : RegAddr) (s : State) : Out :=
  transact s ⟨.query, readReg s a, readReg s b, ⟨aFlag, bFlag, cFlag⟩⟩ (storeData r)

/-- `CDC` (R278): `CONFIGURE` with `id = x[a]`, `value = x[b]`, the flags forwarded; the answer to `x[r]`. -/
def execCdc (aFlag bFlag cFlag : Bool) (r a b : RegAddr) (s : State) : Out :=
  transact s ⟨.configure, readReg s a, readReg s b, ⟨aFlag, bFlag, cFlag⟩⟩ (storeData r)

/-- `REA` (R279): `READ` with `id = x[a]`, value and flags 0; the answer to `x[r]`. -/
def execRea (r a : RegAddr) (s : State) : Out :=
  transact s ⟨.read, readReg s a, 0#16, noPortFlags⟩ (storeData r)

/-- `WRI` (R280): `WRITE` with `id = x[a]`, `value = x[r]`, flags 0; the answer's data is ignored, no register written. -/
def execWri (r a : RegAddr) (s : State) : Out :=
  transact s ⟨.write, readReg s a, readReg s r, noPortFlags⟩ (fun t _ => commit t (advance t))

end Sys2Proof.Machine
end

