-- ==== Sys2Proof/Machine/Control.lean ====
section
/-! DEFINITION. The control instructions (spec/40_engine_and_control.md R150 to R153). -/

namespace Sys2Proof.Machine

/-- `NOP` (R150): `pc <- next`. -/
def execNop (s : State) : Out := complete s (advance s)

/-- `HLT` (R151): `run <- Halted`; `pc` keeps the address of the `HLT`. -/
def execHlt (s : State) : Out := complete s { advance s with halt := true }

/-- `JMP` (R152): `pc <- x[r]`, all 16 bits. -/
def execJmp (r : RegAddr) (s : State) : Out := complete s { advance s with pcNext := readReg s r }

/-- `BRA` (R153): `pc <- x[r]` if `Opnd(x[a], a_flag)` is non-zero, else `pc <- next`. -/
def execBra (aFlag : Bool) (r a : RegAddr) (s : State) : Out :=
  complete s
    { advance s with pcNext := if opnd (readReg s a) aFlag ≠ 0#16 then readReg s r else nextPc s.pc }

end Sys2Proof.Machine
end

