-- ==== Sys2Proof/Machine/Move.lean ====
section
/-! DEFINITION. The move, literal and memory instructions (spec/44_move_memory.md R250 to R256). None applies `Opnd`; the
flags they decode are ignored (R251). -/

namespace Sys2Proof.Machine

/-- `SET` (R253): `x[r] <- l`. -/
def execSet (_aFlag : Bool) (r : RegAddr) (l : Word16) (s : State) : Out := completeWrite s r l

/-- `COP` (R254): `x[r] <- x[a]`, all 16 bits. -/
def execCop (_aFlag _bFlag : Bool) (r a : RegAddr) (s : State) : Out := completeWrite s r (readReg s a)

/-- `LOD` (R255): `x[r] <- zext_16(MemRead(x[a], 1))`. -/
def execLod (_aFlag _bFlag : Bool) (r a : RegAddr) (s : State) : Out :=
  completeWrite s r (zext16 (s.mem.read (readReg s a).toNat))

/-- `SAV` (R256): `MemWrite(x[a], 1, x[r][7:0])`. -/
def execSav (_aFlag _bFlag : Bool) (r a : RegAddr) (s : State) : Out :=
  complete s { advance s with wmem := some (readReg s a, lowByte (readReg s r)) }

end Sys2Proof.Machine
end

