-- ==== Sys2Proof/Machine/Relational.lean ====
section
/-! DEFINITION. The relational instructions (spec/41_relational.md R170 to R175). `b_flag` and `c_flag` are decoded and
ignored (R171). -/

namespace Sys2Proof.Machine

/-- `EQU` (R172): `x[r] <- (A = B) ? 0xFFFF : 0x0000`. -/
def execEqu (aFlag _bFlag _cFlag : Bool) (r a b : RegAddr) (s : State) : Out :=
  runAlu2 aluEqu aFlag r a b s

/-- `NEQ` (R173): `x[r] <- (A != B) ? 0xFFFF : 0x0000`. -/
def execNeq (aFlag _bFlag _cFlag : Bool) (r a b : RegAddr) (s : State) : Out :=
  runAlu2 aluNeq aFlag r a b s

/-- `GTN` (R174): `x[r] <- (A > B) ? 0xFFFF : 0x0000`, unsigned. -/
def execGtn (aFlag _bFlag _cFlag : Bool) (r a b : RegAddr) (s : State) : Out :=
  runAlu2 aluGtn aFlag r a b s

/-- `LTN` (R175): `x[r] <- (A < B) ? 0xFFFF : 0x0000`, unsigned. -/
def execLtn (aFlag _bFlag _cFlag : Bool) (r a b : RegAddr) (s : State) : Out :=
  runAlu2 aluLtn aFlag r a b s

end Sys2Proof.Machine
end

