-- ==== Sys2Proof/Machine/Dispatch.lean ====
section
/-! DEFINITION. The dispatch (spec/40_engine_and_control.md R134): exactly one arm per opcode, no default arm. -/

namespace Sys2Proof.Machine

def exec (i : Instr) (s : State) : Host.Outcome State Fault Refusal :=
  match i with
  | .nop => Sys2Proof.Machine.execNop s
  | .jmp r => Sys2Proof.Machine.execJmp r s
  | .bra aFlag r a => Sys2Proof.Machine.execBra aFlag r a s
  | .hlt => Sys2Proof.Machine.execHlt s
  | .equ aFlag bFlag cFlag r a b => Sys2Proof.Machine.execEqu aFlag bFlag cFlag r a b s
  | .neq aFlag bFlag cFlag r a b => Sys2Proof.Machine.execNeq aFlag bFlag cFlag r a b s
  | .gtn aFlag bFlag cFlag r a b => Sys2Proof.Machine.execGtn aFlag bFlag cFlag r a b s
  | .ltn aFlag bFlag cFlag r a b => Sys2Proof.Machine.execLtn aFlag bFlag cFlag r a b s
  | .add aFlag bFlag cFlag r a b => Sys2Proof.Machine.execAdd aFlag bFlag cFlag r a b s
  | .sub aFlag bFlag cFlag r a b => Sys2Proof.Machine.execSub aFlag bFlag cFlag r a b s
  | .mlt aFlag bFlag cFlag r a b => Sys2Proof.Machine.execMlt aFlag bFlag cFlag r a b s
  | .div aFlag bFlag cFlag r a b => Sys2Proof.Machine.execDiv aFlag bFlag cFlag r a b s
  | .mod aFlag bFlag cFlag r a b => Sys2Proof.Machine.execMod aFlag bFlag cFlag r a b s
  | .inc aFlag bFlag r a => Sys2Proof.Machine.execInc aFlag bFlag r a s
  | .dec aFlag bFlag r a => Sys2Proof.Machine.execDec aFlag bFlag r a s
  | .qop aFlag bFlag cFlag r => Sys2Proof.Machine.execQop aFlag bFlag cFlag r s
  | .eor aFlag bFlag cFlag r a b => Sys2Proof.Machine.execEor aFlag bFlag cFlag r a b s
  | .and aFlag bFlag cFlag r a b => Sys2Proof.Machine.execAnd aFlag bFlag cFlag r a b s
  | .xor aFlag bFlag cFlag r a b => Sys2Proof.Machine.execXor aFlag bFlag cFlag r a b s
  | .not aFlag bFlag r a => Sys2Proof.Machine.execNot aFlag bFlag r a s
  | .lsh aFlag bFlag cFlag r a b => Sys2Proof.Machine.execLsh aFlag bFlag cFlag r a b s
  | .rsh aFlag bFlag cFlag r a b => Sys2Proof.Machine.execRsh aFlag bFlag cFlag r a b s
  | .rot aFlag bFlag r a => Sys2Proof.Machine.execRot aFlag bFlag r a s
  | .cas aFlag bFlag cFlag r a b => Sys2Proof.Machine.execCas aFlag bFlag cFlag r a b s
  | .set aFlag r l => Sys2Proof.Machine.execSet aFlag r l s
  | .cop aFlag bFlag r a => Sys2Proof.Machine.execCop aFlag bFlag r a s
  | .lod aFlag bFlag r a => Sys2Proof.Machine.execLod aFlag bFlag r a s
  | .sav aFlag bFlag r a => Sys2Proof.Machine.execSav aFlag bFlag r a s
  | .qdc aFlag bFlag cFlag r a b => Sys2Proof.Machine.execQdc aFlag bFlag cFlag r a b s
  | .cdc aFlag bFlag cFlag r a b => Sys2Proof.Machine.execCdc aFlag bFlag cFlag r a b s
  | .rea r a => Sys2Proof.Machine.execRea r a s
  | .wri r a => Sys2Proof.Machine.execWri r a s

end Sys2Proof.Machine
end

