-- ==== Sys2Proof/Machine/Step.lean ====
section
/-! DEFINITION. The step of the execution engine (spec/40_engine_and_control.md R130 to R137), and the placing of one
instruction where the step fetches. -/

namespace Sys2Proof.Machine

/-- `Step` (R130): Halted, nothing changes (R137); otherwise fetch at `pc` (R131), decode (R132) and execute (R134). The
outcome `Continue`, `Halt` or `Fault(cause)` that R130 answers with is read off the two states by `stepOutcome`
(Machine/Interface.lean). -/
def step (s : State) : Host.Outcome State Fault Refusal :=
  match s.run with
  | .halted => .next s
  | .running =>
    match fetch s with
    | none => raise s .outOfBounds
    | some raw =>
      match decode raw with
      | .ok i => exec i s
      | .error _ => raise s .decodeError

/-- The state with one word of spec/opcode_table.json stored where `step` fetches next: at `pc`, or at 0 where nothing
can be fetched at `pc`; the block Running. Log entry 5. -/
def State.withFetchWord (s : State) (nbits w : Nat) : State :=
  let pc := if Config.lastFetch < s.pc.toNat then 0#16 else s.pc
  { s with pc := pc, run := .running, mem := memWrite s.mem pc.toNat (tableBytes nbits w) }

end Sys2Proof.Machine
end

