-- ==== Sys2Proof/Machine/Interface.lean ====
section
/-! DEFINITION. The block's boundary (spec/00_scope.md R8, R9): `Create`, `Reset`, `Step` with its answer, `Inspect`,
the status outputs and the request the data-channel port sees (spec/45_status_channel.md R270), power-off
(spec/70_reset_and_hazards.md R340 to R344), and the model option `STRICT_FLAGS` (spec/30_encoding.md R101, D34). -/

namespace Sys2Proof

/-- The 2-bit `op` codes of a request (R270). -/
def PortOp.code : PortOp → BitVec 2
  | .query => 0#2
  | .configure => 1#2
  | .read => 2#2
  | .write => 3#2

end Sys2Proof

namespace Sys2Proof.Machine

/-- The answer of `Step` (R130). -/
inductive StepOutcome where
  | continue
  | halt
  | fault (cause : FaultCause)
deriving DecidableEq, Repr

/-- The answer of the step from `s` to `t` (R130): `Halt` while Halted (R137); `Continue` while Running (R136); else the
step halted the block, with a fault when the record names one (R304), by `HLT` when it names none (R40). Log entry 3. -/
def stepOutcome (s t : State) : StepOutcome :=
  match s.run, t.run with
  | .halted, _ => .halt
  | .running, .running => .continue
  | .running, .halted => if t.faultCause = .none then .halt else .fault t.faultCause

/-- `Create(IMAGE)` (R340, R341): power-on, then memory filled with the image; an image of any other length than
65,536 bytes is refused by the loader and no block is started. -/
def create (image : List Byte) : Option State :=
  if image.length = Config.memSize then some { State.reset with mem := Memory.ofImage 0 image } else none

/-- The numeric cause codes of R39. -/
def FaultCause.code : FaultCause → BitVec 3
  | .none => 0#3
  | .decodeError => 1#3
  | .divideByZero => 2#3
  | .outOfBounds => 3#3
  | .portFault => 4#3

/-- The status outputs (R8, R38, R39). -/
structure StatusOutputs where
  halted     : BitVec 1
  faultCause : BitVec 3
  faultPc    : BitVec 16
  faultRaw   : BitVec 32
deriving DecidableEq, Repr

/-- What the status outputs show of a state: `halted` is 1 exactly when `run = Halted` (R38). -/
def statusOutputs (s : State) : StatusOutputs where
  halted := BitVec.ofBool (s.run == .halted)
  faultCause := s.faultCause.code
  faultPc := s.faultPc
  faultRaw := s.faultRaw

/-- A data-channel request as it crosses the boundary (R8, R270): the fields of R270's table with their widths, the three
flag bits by name. -/
structure RequestOutputs where
  op    : BitVec 2
  id    : BitVec 16
  value : BitVec 16
  flags : PortFlags
deriving DecidableEq, Repr

/-- The request the port sees (R270). -/
def requestOutputs (req : PortRequest) : RequestOutputs := ⟨req.op.code, req.id, req.value, req.flags⟩

/-- What `Inspect` shows (R8): registers, `pc`, memory, run state and fault record. The model's own fields are not in
it. -/
structure Snapshot where
  regs       : Vector Word16 256
  pc         : Word16
  mem        : Memory
  run        : RunState
  faultCause : FaultCause
  faultPc    : Word16
  faultRaw   : Word32
deriving DecidableEq, Repr

/-- `Inspect` (R9): a read-only view; it answers a value and no state. -/
def inspect (s : State) : Snapshot := ⟨s.regs, s.pc, s.mem, s.run, s.faultCause, s.faultPc, s.faultRaw⟩

/-- The state-changing operations of the boundary (R8, R10), and power-off (R342). -/
inductive BlockOp where
  | create (image : List Byte)
  | reset
  | step
  | destroy
deriving DecidableEq, Repr

/-- One operation on a block; none is a block that does not exist (R342). `Reset` may be applied in any run state (R344).
A step of this model always answers a next state; were it to stop otherwise, the block would be left as it is. -/
def applyOp (block : Option State) : BlockOp → Option State
  | .create image => create image
  | .reset => block.map applyReset
  | .step => block.map fun s =>
      match step s with
      | .next t => t
      | .fault _ => s
      | .refused _ => s
  | .destroy => none

/-- The step of a model with `STRICT_FLAGS = true` (R101, D34): as `step`, but a fetched word that sets a flag without a
meaning or a don't-care bit is refused. The hardware of the spec is `step` (`STRICT_FLAGS = false`). -/
def stepStrict (s : State) : Out :=
  match s.run, fetch s with
  | .running, some raw => if strictFlagsOk (wordOfList raw) then step s else .refused (.strictFlags (wordOfList raw))
  | _, _ => step s

end Sys2Proof.Machine
end

