-- ==== Sys2Proof/WellFormed.lean ====
section
/-! DEFINITION. Well-formedness: the normalized records of spec/00_scope.md R15 and spec/30_encoding.md R104, one check
per field and flag, and the well-formed instructions. An `Instr` holds only the fields of its shape, so every `Instr` is
well-formed (Laws/Decode.lean); a `Record` need not be. -/

namespace Sys2Proof

/-- A flag absent from the shape is false. -/
def flagOk (present flag : Bool) : Bool := present || !flag

/-- A field absent from the shape is 0. -/
def fieldOk {n : Nat} (present : Bool) (v : BitVec n) : Bool := present || v == 0#n

/-- The normalized records (R15): fields and flags unused by the opcode are zero or false. -/
def Record.normalized (i : Record) : Bool :=
  let p := presence i.opcode
  flagOk p.aFlag i.aFlag && flagOk p.bFlag i.bFlag && flagOk p.cFlag i.cFlag &&
    fieldOk p.r i.r && fieldOk p.a i.a && fieldOk p.b i.b && fieldOk p.l i.l

/-- A well-formed instruction: its record is normalized. -/
def Instr.wellFormed (i : Instr) : Bool := (recordOfInstr i).normalized

end Sys2Proof
end

