-- ==== Sys2Proof/Safety.lean ====
section
/-! DEFINITION. The terms statements use: what leaves what unchanged, what an instruction reads and writes (the table of
spec/10_state.md R34), when it faults, and the invariant `Inv` of the block. -/

namespace Sys2Proof.Safety

open Sys2Proof.Machine

/-! Frames -/

/-- Every register is unchanged. -/
def sameRegs (s t : State) : Prop := ∀ q, readReg t q = readReg s q

/-- Every register but `x[r]` is unchanged. -/
def sameRegsBut (r : RegAddr) (s t : State) : Prop := ∀ q, q ≠ r → readReg t q = readReg s q

/-- Every byte of memory reads as before. -/
def sameMem (s t : State) : Prop := ∀ addr, t.mem.read addr = s.mem.read addr

/-- The run state and the fault record are unchanged. -/
def sameStatus (s t : State) : Prop :=
  t.run = s.run ∧ t.faultCause = s.faultCause ∧ t.faultPc = s.faultPc ∧ t.faultRaw = s.faultRaw

/-- No request was sent and no open value drawn. -/
def sameEnv (s t : State) : Prop :=
  t.portLog = s.portLog ∧ t.portAnswers = s.portAnswers ∧ t.qopAnswers = s.qopAnswers ∧ t.draws = s.draws

/-- One request was sent: it heads the port's history, its answer is used up, one draw was made. -/
def sent (req : PortRequest) (s t : State) : Prop :=
  t.portLog = req :: s.portLog ∧ t.portAnswers = s.portAnswers.tail ∧ t.qopAnswers = s.qopAnswers ∧
    t.draws = s.draws + 1

/-- The outcome is a next state in which `x[r]` meets `P`, `pc` is the default next address, and nothing else differs
from `s`, but for the environment, related by `env`. -/
def WritesReg (env : State → State → Prop) (s : State) (r : RegAddr) (P : Word16 → Prop) (o : Out) : Prop :=
  ∃ t, o = .next t ∧ P (readReg t r) ∧ t.pc = nextPc s.pc ∧
    sameRegsBut r s t ∧ sameMem s t ∧ sameStatus s t ∧ env s t

/-- The outcome is a next state that differs from `s` in `pc` alone, which holds `target`. -/
def OnlyMovesPc (s : State) (target : Word16) (o : Out) : Prop :=
  ∃ t, o = .next t ∧ t.pc = target ∧ sameRegs s t ∧ sameMem s t ∧ sameStatus s t ∧ sameEnv s t

/-- The outcome is the fault entry of R304: halted, the record holding `cause`, the `pc` and the raw word at it; registers,
memory and `pc` as in `s`, the environment related by `env`. -/
def TakesFault (env : State → State → Prop) (s : State) (cause : FaultCause) (raw : Word32) (o : Out) : Prop :=
  ∃ t, o = .next t ∧ t.run = .halted ∧ t.faultCause = cause ∧ t.faultPc = s.pc ∧ t.faultRaw = raw ∧
    t.pc = s.pc ∧ sameRegs s t ∧ sameMem s t ∧ env s t

/-! What is fetched -/

/-- The four bytes at `pc`, `MEM[pc]` first. -/
def bytesAtPc (s : State) : List Byte :=
  [s.mem.read s.pc.toNat, s.mem.read (s.pc.toNat + 1), s.mem.read (s.pc.toNat + 2), s.mem.read (s.pc.toNat + 3)]

/-- The word at `pc`, `MEM[pc]` in bits 31:24 (R90). -/
def wordAtPc (s : State) : Word32 :=
  wordOfBytes (s.mem.read s.pc.toNat) (s.mem.read (s.pc.toNat + 1)) (s.mem.read (s.pc.toNat + 2))
    (s.mem.read (s.pc.toNat + 3))

/-- The block is Running and the four bytes at `pc` are the instruction `i`: the next step executes `i`. -/
def AboutToRun (s : State) (i : Instr) : Prop :=
  s.run = .running ∧ s.pc.toNat ≤ 65532 ∧ decode (bytesAtPc s) = .ok i

/-! What an instruction reads and writes (R34) -/

/-- The register an instruction writes (R34). -/
def destination : Instr → Option RegAddr
  | .nop | .hlt | .jmp _ | .bra _ _ _ => none
  | .sav _ _ _ _ | .wri _ _ => none
  | .equ _ _ _ r _ _ | .neq _ _ _ r _ _ | .gtn _ _ _ r _ _ | .ltn _ _ _ r _ _ => some r
  | .add _ _ _ r _ _ | .sub _ _ _ r _ _ | .mlt _ _ _ r _ _ | .div _ _ _ r _ _ | .mod _ _ _ r _ _ => some r
  | .eor _ _ _ r _ _ | .and _ _ _ r _ _ | .xor _ _ _ r _ _ => some r
  | .lsh _ _ _ r _ _ | .rsh _ _ _ r _ _ | .cas _ _ _ r _ _ => some r
  | .inc _ _ r _ | .dec _ _ r _ | .not _ _ r _ | .rot _ _ r _ | .cop _ _ r _ | .lod _ _ r _ => some r
  | .set _ r _ | .qop _ _ _ r => some r
  | .qdc _ _ _ r _ _ | .cdc _ _ _ r _ _ | .rea r _ => some r

/-- The registers an instruction reads (R34). -/
def sources : Instr → List RegAddr
  | .nop | .hlt | .set _ _ _ | .qop _ _ _ _ => []
  | .jmp r => [r]
  | .bra _ r a => [r, a]
  | .equ _ _ _ _ a b | .neq _ _ _ _ a b | .gtn _ _ _ _ a b | .ltn _ _ _ _ a b => [a, b]
  | .add _ _ _ _ a b | .sub _ _ _ _ a b | .mlt _ _ _ _ a b | .div _ _ _ _ a b | .mod _ _ _ _ a b => [a, b]
  | .eor _ _ _ _ a b | .and _ _ _ _ a b | .xor _ _ _ _ a b => [a, b]
  | .lsh _ _ _ _ a b | .rsh _ _ _ _ a b | .cas _ _ _ _ a b => [a, b]
  | .inc _ _ _ a | .dec _ _ _ a | .not _ _ _ a | .rot _ _ _ a | .cop _ _ _ a | .lod _ _ _ a => [a]
  | .sav _ _ r a | .wri r a => [r, a]
  | .qdc _ _ _ _ a b | .cdc _ _ _ _ a b => [a, b]
  | .rea _ a => [a]

/-- The request a data-channel instruction sends (R277 to R280); the other instructions send none (R306). -/
def requestOf (s : State) : Instr → Option PortRequest
  | .qdc fa fb fc _ a b => some ⟨.query, readReg s a, readReg s b, ⟨fa, fb, fc⟩⟩
  | .cdc fa fb fc _ a b => some ⟨.configure, readReg s a, readReg s b, ⟨fa, fb, fc⟩⟩
  | .rea _ a => some ⟨.read, readReg s a, 0#16, ⟨false, false, false⟩⟩
  | .wri r a => some ⟨.write, readReg s a, readReg s r, ⟨false, false, false⟩⟩
  | _ => none

/-- The instruction is `DIV` or `MOD` and its prepared divisor is 0 (R305). -/
def dividesByZero (s : State) : Instr → Prop
  | .div fa _ _ _ _ b | .mod fa _ _ _ _ b => opnd (readReg s b) fa = 0#16
  | _ => False

/-- The instruction is a data-channel one and the port answers its request with `Fail` (R306). -/
def portFails (s : State) (i : Instr) : Prop :=
  match requestOf s i with
  | some req => portResponse s req = .fail
  | none => False

/-- The instruction is `JMP`, or a `BRA` whose prepared condition is not 0 (R152, R153), with its target. -/
def jumpTarget (s : State) : Instr → Option Word16
  | .jmp r => some (readReg s r)
  | .bra fa r a => if opnd (readReg s a) fa = 0#16 then none else some (readReg s r)
  | _ => none

/-- Every flag that D7 lists for the instruction as ignored is clear (R101, R171, R199, R220, R251). -/
def ignoredFlagsClear : Instr → Prop
  | .equ _ fb fc _ _ _ | .neq _ fb fc _ _ _ | .gtn _ fb fc _ _ _ | .ltn _ fb fc _ _ _ => fb = false ∧ fc = false
  | .add _ fb fc _ _ _ | .sub _ fb fc _ _ _ | .mlt _ fb fc _ _ _ => fb = false ∧ fc = false
  | .div _ fb fc _ _ _ | .mod _ fb fc _ _ _ => fb = false ∧ fc = false
  | .eor _ fb fc _ _ _ | .and _ fb fc _ _ _ | .xor _ fb fc _ _ _ => fb = false ∧ fc = false
  | .lsh _ fb fc _ _ _ | .rsh _ fb fc _ _ _ => fb = false ∧ fc = false
  | .cas _ fb _ _ _ _ => fb = false
  | .inc _ fb _ _ | .dec _ fb _ _ | .not _ fb _ _ | .rot _ fb _ _ => fb = false
  | .set fa _ _ => fa = false
  | .cop fa fb _ _ | .lod fa fb _ _ | .sav fa fb _ _ => fa = false ∧ fb = false
  | .nop | .hlt | .jmp _ | .bra _ _ _ | .rea _ _ | .wri _ _ => True
  | .qop _ _ _ _ | .qdc _ _ _ _ _ _ | .cdc _ _ _ _ _ _ => True

/-! The invariant -/

/-- The fault record says what happened (R38 to R40, R303 to R306, R309), and memory has its canonical form. -/
structure Inv (s : State) : Prop where
  /-- Memory is canonical. -/
  memWf : s.mem.wf = true
  /-- A recorded fault means Halted (R304), with `fault_pc` the unchanged `pc` (R303). -/
  faultHalts : s.faultCause ≠ .none → s.run = .halted ∧ s.faultPc = s.pc
  /-- No fault: the record is clear (R39). -/
  clearRecord : s.faultCause = .none → s.faultPc = 0#16 ∧ s.faultRaw = 0#32
  /-- No word raises `DECODE_ERROR` (R99, R301). -/
  noDecodeError : s.faultCause ≠ .decodeError
  /-- `OUT_OF_BOUNDS` was raised by a fetch beyond 65532 (R302), with raw word 0 (R39). -/
  outOfBounds : s.faultCause = .outOfBounds → 65532 < s.pc.toNat ∧ s.faultRaw = 0#32
  /-- `DIVIDE_BY_ZERO` was raised by the `DIV` or `MOD` that still stands at `pc`, its prepared divisor still 0 (R305). -/
  divideByZero : s.faultCause = .divideByZero →
    s.pc.toNat ≤ 65532 ∧ s.faultRaw = wordAtPc s ∧ ∃ i, decode (bytesAtPc s) = .ok i ∧ dividesByZero s i
  /-- `PORT_FAULT` was raised by the data-channel instruction that still stands at `pc`, and its request is the last one
  sent (R306, R272). -/
  portFault : s.faultCause = .portFault →
    s.pc.toNat ≤ 65532 ∧ s.faultRaw = wordAtPc s ∧
      ∃ i req, decode (bytesAtPc s) = .ok i ∧ requestOf s i = some req ∧ s.portLog.head? = some req

end Sys2Proof.Safety
end

