-- ==== Sys2Proof/Certificates/Slice0/Obligations.lean ====
section
/-! DEFINITION. The statements for the provers, from the numbered rules of spec/. Where a docstring says "the spec's own
decision", the clause rests on a choice that spec/92_eei_decisions.md marks as the spec's own and on the log entry named. -/

open Sys2Proof
open Sys2Proof.Machine
open Sys2Proof.Safety

/-! ## Encoding -/

/-- R104: decode of encode is the identity on normalized records, and encode of decode clears the `x` bits and no other. -/
def Obligations.DecodeEncodeRoundTrip : Prop :=
  (∀ i : Record, i.normalized = true →
    ∃ raw0 raw1 raw2 raw3, encodeRecord i = [raw0, raw1, raw2, raw3] ∧
      decodeRecord raw0 raw1 raw2 raw3 = .ok i) ∧
  (∀ raw0 raw1 raw2 raw3 : Byte, ∃ i, decodeRecord raw0 raw1 raw2 raw3 = .ok i ∧
    wordOfList (encodeRecord i) = wordOfBytes raw0 raw1 raw2 raw3 &&& careMask (shapeOf i.opcode))

/-- Every instruction is well-formed, and the decoder reads it back from its four bytes: no bit of an encoding is
dropped. -/
def Obligations.EveryInstrDecodesFromItsEncoding : Prop :=
  ∀ i : Instr, i.wellFormed = true ∧ (encode i).length = 4 ∧ decode (encode i) = .ok i

/-- R97, R98: what every one of the 2^32 words decodes to, by the number in the top five bits of byte 0; the flags are
bits 2, 1 and 0 of byte 0, and what a shape lacks decodes to false or 0. -/
def Obligations.DecodeFollowsTheOpcodeMap : Prop :=
  ∀ raw0 r a b : Byte,
    let op : Nat := raw0.toNat / 8
    let A : Bool := decide (raw0.toNat / 4 % 2 = 1)
    let B : Bool := decide (raw0.toNat / 2 % 2 = 1)
    let C : Bool := decide (raw0.toNat % 2 = 1)
    let decodesTo : Record → Prop := fun rec =>
      decodeRecord raw0 r a b = .ok rec ∧
        ∃ i, decode [raw0, r, a, b] = .ok i ∧ recordOfInstr i = rec
    (op = 0 → decodesTo ⟨.nop, false, false, false, 0#8, 0#8, 0#8, 0#16⟩) ∧
    (op = 1 → decodesTo ⟨.jmp, false, false, false, r, 0#8, 0#8, 0#16⟩) ∧
    (op = 2 → decodesTo ⟨.bra, A, false, false, r, a, 0#8, 0#16⟩) ∧
    (op = 3 → decodesTo ⟨.hlt, false, false, false, 0#8, 0#8, 0#8, 0#16⟩) ∧
    (op = 4 → decodesTo ⟨.equ, A, B, C, r, a, b, 0#16⟩) ∧
    (op = 5 → decodesTo ⟨.neq, A, B, C, r, a, b, 0#16⟩) ∧
    (op = 6 → decodesTo ⟨.gtn, A, B, C, r, a, b, 0#16⟩) ∧
    (op = 7 → decodesTo ⟨.ltn, A, B, C, r, a, b, 0#16⟩) ∧
    (op = 8 → decodesTo ⟨.add, A, B, C, r, a, b, 0#16⟩) ∧
    (op = 9 → decodesTo ⟨.sub, A, B, C, r, a, b, 0#16⟩) ∧
    (op = 10 → decodesTo ⟨.mlt, A, B, C, r, a, b, 0#16⟩) ∧
    (op = 11 → decodesTo ⟨.div, A, B, C, r, a, b, 0#16⟩) ∧
    (op = 12 → decodesTo ⟨.mod, A, B, C, r, a, b, 0#16⟩) ∧
    (op = 13 → decodesTo ⟨.inc, A, B, false, r, a, 0#8, 0#16⟩) ∧
    (op = 14 → decodesTo ⟨.dec, A, B, false, r, a, 0#8, 0#16⟩) ∧
    (op = 15 → decodesTo ⟨.qop, A, B, C, r, 0#8, 0#8, 0#16⟩) ∧
    (op = 16 → decodesTo ⟨.eor, A, B, C, r, a, b, 0#16⟩) ∧
    (op = 17 → decodesTo ⟨.and, A, B, C, r, a, b, 0#16⟩) ∧
    (op = 18 → decodesTo ⟨.xor, A, B, C, r, a, b, 0#16⟩) ∧
    (op = 19 → decodesTo ⟨.not, A, B, false, r, a, 0#8, 0#16⟩) ∧
    (op = 20 → decodesTo ⟨.lsh, A, B, C, r, a, b, 0#16⟩) ∧
    (op = 21 → decodesTo ⟨.rsh, A, B, C, r, a, b, 0#16⟩) ∧
    (op = 22 → decodesTo ⟨.rot, A, B, false, r, a, 0#8, 0#16⟩) ∧
    (op = 23 → decodesTo ⟨.cas, A, B, C, r, a, b, 0#16⟩) ∧
    (op = 24 → ∃ l : Word16, l.toNat = a.toNat * 256 + b.toNat ∧
      decodesTo ⟨.set, A, false, false, r, 0#8, 0#8, l⟩) ∧
    (op = 25 → decodesTo ⟨.cop, A, B, false, r, a, 0#8, 0#16⟩) ∧
    (op = 26 → decodesTo ⟨.lod, A, B, false, r, a, 0#8, 0#16⟩) ∧
    (op = 27 → decodesTo ⟨.sav, A, B, false, r, a, 0#8, 0#16⟩) ∧
    (op = 28 → decodesTo ⟨.qdc, A, B, C, r, a, b, 0#16⟩) ∧
    (op = 29 → decodesTo ⟨.cdc, A, B, C, r, a, b, 0#16⟩) ∧
    (op = 30 → decodesTo ⟨.rea, false, false, false, r, a, 0#8, 0#16⟩) ∧
    (op = 31 → decodesTo ⟨.wri, false, false, false, r, a, 0#8, 0#16⟩)

/-- R99: every four bytes decode to an instruction, by the opcode their top five bits name, and no step records
`DECODE_ERROR`. -/
def Obligations.EveryWordDecodes : Prop :=
  (∀ raw0 raw1 raw2 raw3 : Byte, ∃ i, decode [raw0, raw1, raw2, raw3] = .ok i ∧
    (opcodeOf i).code.toNat = raw0.toNat / 8) ∧
  (∀ s t : State, step s = .next t → s.faultCause ≠ .decodeError → t.faultCause ≠ .decodeError)

/-- R100, its first part: two words that agree on every bit not marked `x` for their opcode decode alike. (The raw word a
fault records keeps its `x` bits: log entry 4.) -/
def Obligations.DontCareBitsDoNotChangeDecode : Prop :=
  ∀ (w w' : Word32) (i : Instr), decode (bytesOfWord w) = .ok i →
    w &&& careMask (shapeOf (opcodeOf i)) = w' &&& careMask (shapeOf (opcodeOf i)) →
    decode (bytesOfWord w') = .ok i

/-- Worked words decode to the instructions they stand for: three of the source (E2 to E4), five encoding examples of R111
(`HLT`, `ADD`, `SAV`, `QOP.C`, `REA`) and the example `CAS.C` of R229. -/
def Obligations.WorkedWordsDecode : Prop :=
  decode [0x00, 0x7F, 0x33, 0x69] = .ok .nop ∧
  decode [0xC4, 0xF9, 0xD7, 0x32] = .ok (.set true 0xF9 0xD732) ∧
  decode [0x17, 0xDB, 0x9F, 0x13] = .ok (.bra true 0xDB 0x9F) ∧
  decode [0x18, 0x00, 0x00, 0x00] = .ok .hlt ∧
  decode [0x40, 0x01, 0x02, 0x03] = .ok (.add false false false 1 2 3) ∧
  decode [0xB9, 0x01, 0x02, 0x03] = .ok (.cas false false true 1 2 3) ∧
  decode [0xD8, 0x04, 0x09, 0x00] = .ok (.sav false false 4 9) ∧
  decode [0x79, 0x06, 0x00, 0x00] = .ok (.qop false false true 6) ∧
  decode [0xF0, 0x01, 0x02, 0x00] = .ok (.rea 1 2)

/-- The model's own interface to the opcode table (log entry 5): a table word placed where the step fetches is the
instruction the very next step runs. -/
def Obligations.PlacedTableWordRuns : Prop :=
  ∀ (s : State) (w : Nat), s.mem.wf = true → ∃ i, decodeTableWord 32 w = some i ∧
    step (s.withFetchWord 32 w) = exec i (s.withFetchWord 32 w)

/-- The option `STRICT_FLAGS` (R101, D34): the strict step refuses the fetched words that the test rejects and is the step
otherwise; and the test passes exactly the words that set no `x` bit (they are the encoding of their instruction) and no
flag D7 lists as ignored, instruction by instruction. D7 is the spec's own decision (log entries 6 and 10). -/
def Obligations.StrictStepRefusesOnlyMarkedWords : Prop :=
  (∀ s : State, s.run = .running → s.pc.toNat ≤ 65532 → strictFlagsOk (wordAtPc s) = false →
    stepStrict s = .refused (.strictFlags (wordAtPc s))) ∧
  (∀ s : State, s.run = .halted ∨ 65532 < s.pc.toNat ∨ strictFlagsOk (wordAtPc s) = true → stepStrict s = step s) ∧
  (∀ (w : Word32) (i : Instr), decode (bytesOfWord w) = .ok i →
    (strictFlagsOk w = true ↔ encode i = bytesOfWord w ∧ ignoredFlagsClear i))

/-! ## The step -/

/-- R130 to R132: where the block is Running and the four bytes at `pc` decode to `i`, the step is `exec i`. -/
def Obligations.StepRunsDecodedInstruction : Prop :=
  ∀ (s : State) (i : Instr), AboutToRun s i → step s = exec i s

/-- R65: a fetch at `pc` up to 65532 succeeds with the four bytes there and the step runs what they decode to; from 65533
on it fails, never wrapping, and the step raises `OUT_OF_BOUNDS`. -/
def Obligations.FetchIsBoundsChecked : Prop :=
  (∀ s : State, s.run = .running → s.pc.toNat ≤ 65532 →
    fetch s = some (bytesAtPc s) ∧ ∃ i, decode (bytesAtPc s) = .ok i ∧ step s = exec i s) ∧
  (∀ s : State, s.run = .running → 65532 < s.pc.toNat →
    fetch s = none ∧ ∃ t, step s = .next t ∧ stepOutcome s t = .fault .outOfBounds)

/-- A Halted block executes nothing, however often it is stepped. That a step while Halted is accepted is the spec's own
decision D17 (log entry 7). -/
def Obligations.HaltedBlockIgnoresSteps : Prop :=
  ∀ (n : Nat) (s : State), s.run = .halted → Host.Core.run Sys2Proof.core n s = .next s

/-- Every step of every state answers a next state: no fault of the spec stops the model (log entry 3). -/
def Obligations.EveryStepAnswersNext : Prop :=
  (∀ s : State, ∃ t, step s = .next t) ∧ (∀ (i : Instr) (s : State), ∃ t, exec i s = .next t)

/-- The default next address. Its wrap at 65532 is the spec's own decision D12 (log entry 7). -/
def Obligations.NextAddressWraps : Prop :=
  ∀ pc : Word16, (nextPc pc).toNat = if pc.toNat < 65532 then pc.toNat + 4 else pc.toNat + 4 - 65536

/-- R37 in the model's terms: a completed instruction commits the default next address, or its jump target; `HLT` and a
faulting step leave `pc`. That they leave it is the spec's own decision D14, D15 (log entry 7). -/
def Obligations.StepCommitsTheProgramCounter : Prop :=
  ∀ (s t : State) (i : Instr), AboutToRun s i → s.faultCause = .none → step s = .next t →
    (t.faultCause = .none → i ≠ .hlt → t.pc = (jumpTarget s i).getD (nextPc s.pc)) ∧
    (t.faultCause ≠ .none ∨ i = .hlt → t.pc = s.pc)

/-- The fetch bound: a step raises `OUT_OF_BOUNDS` exactly when fewer than 4 bytes remain, before decode and with nothing
else changed; and a step reaches such a `pc` only by a jump or by advancing from 65529 to 65531. The raw word 0 is the
spec's own decision D28 (log entry 8). -/
def Obligations.OutOfBoundsExactlyPastTheEdge : Prop :=
  (∀ s : State, s.run = .running → 65532 < s.pc.toNat → TakesFault sameEnv s .outOfBounds 0#32 (step s)) ∧
  (∀ (s t : State) (i : Instr), AboutToRun s i → s.faultCause = .none → step s = .next t →
    t.faultCause ≠ .outOfBounds ∧
    (65532 < t.pc.toNat → (jumpTarget s i).isSome ∨ (65529 ≤ s.pc.toNat ∧ s.pc.toNat ≤ 65531)))

/-- The answer of `Step` (R130), read off the two states: the fault raised, `Halt` for `HLT`, else `Continue`. -/
def Obligations.StepAnswersItsOutcome : Prop :=
  (∀ (s t : State) (i : Instr), AboutToRun s i → s.faultCause = .none → step s = .next t →
    (dividesByZero s i → stepOutcome s t = .fault .divideByZero) ∧
    (portFails s i → stepOutcome s t = .fault .portFault) ∧
    (i = .hlt → stepOutcome s t = .halt) ∧
    (¬ dividesByZero s i → ¬ portFails s i → i ≠ .hlt → stepOutcome s t = .continue)) ∧
  (∀ s t : State, s.run = .running → 65532 < s.pc.toNat → step s = .next t →
    stepOutcome s t = .fault .outOfBounds) ∧
  (∀ s t : State, s.run = .halted → step s = .next t → stepOutcome s t = .halt)

/-! ## Faults, halting, reset -/

/-- The run state (R38): `HLT` and every fault halt the block, only `Reset` and `Create` set it Running, and `halted` is 1
exactly when it is Halted. That `Create` and `Reset` leave it Running is the spec's own decision D18 (log entry 8). -/
def Obligations.OnlyResetAndCreateSetRunning : Prop :=
  (∀ s t : State, exec .hlt s = .next t → t.run = .halted) ∧
  (∀ s t : State, step s = .next t → t.faultCause ≠ s.faultCause → t.run = .halted) ∧
  (∀ s t : State, step s = .next t → s.run = .halted → t.run = .halted) ∧
  (∀ (i : Instr) (s t : State), exec i s = .next t → s.run = .halted → t.run = .halted) ∧
  (∀ s : State, (applyReset s).run = .running) ∧
  (∀ (image : List Byte) (s : State), create image = some s → s.run = .running) ∧
  (∀ s : State, (statusOutputs s).halted = 1#1 ↔ s.run = .halted)

/-- Precise faults (R303): a faulting step changes no register, no byte of memory and not `pc`, and the one effect that
escapes is a data-channel request already sent. That `pc` is kept is the spec's own decision D15, the record's fields D16,
the request staying sent D22 (log entries 7 and 8). -/
def Obligations.FaultingStepHasNoOtherEffect : Prop :=
  ∀ s t : State, s.run = .running → s.faultCause = .none → step s = .next t → t.faultCause ≠ .none →
    t.run = .halted ∧ t.pc = s.pc ∧ t.faultPc = s.pc ∧ sameRegs s t ∧ sameMem s t ∧
    (sameEnv s t ∨ ∃ i req, AboutToRun s i ∧ requestOf s i = some req ∧ sent req s t)

/-- Fault entry (R304): the record a faulting instruction leaves holds its address and its raw word. The record's layout
and D15 are the spec's own decisions (log entries 7 and 8). -/
def Obligations.FaultEntryRecordsTheInstruction : Prop :=
  ∀ (s t : State) (i : Instr), AboutToRun s i → s.faultCause = .none → step s = .next t → t.faultCause ≠ .none →
    t.faultPc = s.pc ∧ t.faultRaw = wordAtPc s ∧ decode (bytesOfWord t.faultRaw) = .ok i

/-- `DIVIDE_BY_ZERO` (R305) is raised by `DIV` and `MOD` with a prepared divisor of 0 and by nothing else, and halts. That
the test is on the prepared divisor, and its preparation, are the spec's own decisions D3, D29 (log entry 6). -/
def Obligations.DivideByZeroExactlyWhenDivisorIsZero : Prop :=
  ∀ s t : State, s.run = .running → s.faultCause = .none → step s = .next t →
    (t.faultCause = .divideByZero ↔ ∃ i, AboutToRun s i ∧ dividesByZero s i) ∧
    (t.faultCause = .divideByZero → t.run = .halted)

/-- `PORT_FAULT` (R306) is raised by the data-channel instructions on `Fail` and by nothing else; the other instructions
never contact the port. The requests and what `Fail` does are the spec's own decisions D21, D22 (log entry 8), the port's
answers the model's tape (log entry 2). -/
def Obligations.PortFaultExactlyWhenPortFails : Prop :=
  ∀ s t : State, s.run = .running → s.faultCause = .none → step s = .next t →
    (t.faultCause = .portFault ↔ ∃ i, AboutToRun s i ∧ portFails s i) ∧
    ((∀ i, AboutToRun s i → requestOf s i = none) →
      t.portLog = s.portLog ∧ t.portAnswers = s.portAnswers)

/-- One port transaction at most per step, in program order (R71, R135): the history grows by nothing, or by the request of
the instruction run. The order is the spec's own decision D26 (log entry 7). -/
def Obligations.RequestsReachThePortInOrder : Prop :=
  ∀ (s t : State) (i : Instr), AboutToRun s i → step s = .next t →
    t.portLog = (requestOf s i).toList ++ s.portLog

/-- `Reset` (R343): what it clears, and that memory and the environment are kept. The run state, the record and kept
memory are the spec's own decision D18; the environment is the model's (log entries 2 and 8). -/
def Obligations.ResetKeepsMemoryAndClearsTheRest : Prop :=
  ∀ s : State, (∀ q, readReg (applyReset s) q = 0#16) ∧ (applyReset s).pc = 0#16 ∧ (applyReset s).run = .running ∧
    (applyReset s).faultCause = .none ∧ (applyReset s).faultPc = 0#16 ∧ (applyReset s).faultRaw = 0#32 ∧
    sameMem s (applyReset s) ∧ sameEnv s (applyReset s)

/-- The state after power-on (R340, R345): registers and memory zero, `pc` 0, Running, the record clear. The run state and
the record are the spec's own decision D18 (log entry 8); the model's own fields are not part of it. -/
def Obligations.ResetStateIsZeroed : Prop :=
  (∀ q, readReg State.reset q = 0#16) ∧ (∀ addr, State.reset.mem.read addr = 0#8) ∧ State.reset.pc = 0#16 ∧
    State.reset.run = .running ∧ State.reset.faultCause = .none ∧ State.reset.faultPc = 0#16 ∧
    State.reset.faultRaw = 0#32

/-- `Create(IMAGE)` (R341): an image of 65,536 bytes fills memory byte for byte over the power-on state; any other length
starts no block. The whole load before the first step is the spec's own decision D19 (log entry 5); that the block is Running
with the record clear is the spec's own decision D18 (log entry 8). -/
def Obligations.CreateLoadsTheImage : Prop :=
  ∀ image : List Byte,
    (image.length = 65536 → ∃ s, create image = some s ∧ s.mem.wf = true ∧
      (∀ (addr : Nat) (h : addr < image.length), s.mem.read addr = image[addr]) ∧
      (∀ q, readReg s q = 0#16) ∧ s.pc = 0#16 ∧ s.run = .running ∧
      s.faultCause = .none ∧ s.faultPc = 0#16 ∧ s.faultRaw = 0#32) ∧
    (image.length ≠ 65536 → create image = none)

/-! ## The invariant -/

/-- The invariant holds after reset. -/
def Obligations.InvHoldsAtReset : Prop := Inv State.reset

/-- Every step keeps the invariant: the fault record says truly what was raised, where and by which instruction, and memory
stays canonical. -/
def Obligations.StepKeepsInv : Prop :=
  ∀ s t : State, Inv s → step s = .next t → Inv t

/-- Every operation of the boundary keeps the invariant, and `Create` establishes it. -/
def Obligations.BoundaryOperationsKeepInv : Prop :=
  ∀ (block : Option State) (op : BlockOp) (t : State),
    (∀ s, block = some s → Inv s) → applyOp block op = some t → Inv t

/-! ## Whole-machine frames (R34) -/

/-- R34, the column "writes", with R35: no instruction writes a register but its destination, and a faulting one writes
none. -/
def Obligations.OnlyTheDestinationIsWritten : Prop :=
  ∀ (i : Instr) (s t : State), exec i s = .next t →
    (∀ q, destination i ≠ some q → readReg t q = readReg s q) ∧
    (s.faultCause = .none → t.faultCause ≠ .none → sameRegs s t)

/-- R34, the column "reads": a register that is no source of an instruction does not affect what it does. The runs from two
states that differ in such a register differ at most in that register. -/
def Obligations.OnlyTheSourcesAreRead : Prop :=
  ∀ (i : Instr) (s : State) (q : RegAddr) (v : Word16), q ∉ sources i →
    ∃ t t', exec i s = .next t ∧ exec i (writeReg s q v) = .next t' ∧
      t'.pc = t.pc ∧ sameRegsBut q t t' ∧ sameMem t t' ∧ sameStatus t t' ∧ sameEnv t t' ∧
      (destination i ≠ some q → readReg t' q = v) ∧
      (destination i = some q →
        readReg t' q = readReg t q ∨ (readReg t q = readReg s q ∧ readReg t' q = v))

/-- Memory changes only through `SAV` (R341, R67). -/
def Obligations.OnlySavWritesMemory : Prop :=
  ∀ (i : Instr) (s t : State), exec i s = .next t → opcodeOf i ≠ .sav → sameMem s t

/-- R40: no instruction reads the run state or the fault record. Two states that differ there alone run an instruction to
states that agree on everything else. -/
def Obligations.RunStateAndRecordAreUnobservable : Prop :=
  ∀ (i : Instr) (s s' : State), s'.regs = s.regs → s'.pc = s.pc → s'.mem = s.mem → sameEnv s s' →
    ∃ t t', exec i s = .next t ∧ exec i s' = .next t' ∧
      t'.regs = t.regs ∧ t'.pc = t.pc ∧ t'.mem = t.mem ∧ sameEnv t t'

/-- R31: no register is hardwired or reserved; `x[0]` stores what is written to it like any other. -/
def Obligations.EveryRegisterStoresWhatIsWritten : Prop :=
  (∀ (s : State) (v : Word16), readReg (writeReg s 0#8 v) 0#8 = v) ∧
  (∀ (s : State) (i q : RegAddr) (v : Word16), readReg (writeReg s i v) q = if q = i then v else readReg s q)

/-! ## Control -/

/-- `NOP` (R150) only advances. The wrap at 65532 is the spec's own decision D12 (log entry 7). -/
def Obligations.NopOnlyAdvances : Prop :=
  ∀ s : State, OnlyMovesPc s (nextPc s.pc) (exec .nop s)

/-- `HLT` (R151) halts and changes nothing else, the fault record included. That `pc` stays at the `HLT` is the spec's own
decision D14 (log entry 7). -/
def Obligations.HltOnlyHalts : Prop :=
  ∀ s : State, ∃ t, exec .hlt s = .next t ∧ t.run = .halted ∧ t.pc = s.pc ∧ sameRegs s t ∧ sameMem s t ∧
    t.faultCause = s.faultCause ∧ t.faultPc = s.faultPc ∧ t.faultRaw = s.faultRaw ∧ sameEnv s t

/-- R152: the words of `JMP`, its jump to `x[r]` with nothing else changed, and the fault of the next step where the target
is above 65532. -/
def Obligations.JmpGoesToTheRegister : Prop :=
  (∀ raw0 raw1 raw2 raw3 : Byte, raw0.toNat / 8 = 1 → decode [raw0, raw1, raw2, raw3] = .ok (.jmp raw1)) ∧
  (∀ (s : State) (r : RegAddr), OnlyMovesPc s (readReg s r) (exec (.jmp r) s)) ∧
  (∀ (s t u : State) (r : RegAddr), s.run = .running → exec (.jmp r) s = .next t → 65532 < (readReg s r).toNat →
    step t = .next u → u.faultCause = .outOfBounds ∧ u.run = .halted)

/-- `BRA` (R153): its words, taken and not taken by the prepared condition, nothing else changed, and the fault of the next
step where the branch is taken to a target above 65532. The polarity of the width flag is the spec's own decision D3, the
wrap of the default advance D12, the record of the fault D16 (log entries 6, 7 and 8). -/
def Obligations.BraBranchesOnThePreparedCondition : Prop :=
  (∀ raw0 raw1 raw2 raw3 : Byte, raw0.toNat / 8 = 2 →
    decode [raw0, raw1, raw2, raw3] = .ok (.bra (decide (raw0.toNat / 4 % 2 = 1)) raw1 raw2)) ∧
  (∀ (s : State) (fa : Bool) (r a : RegAddr), opnd (readReg s a) fa ≠ 0#16 →
    OnlyMovesPc s (readReg s r) (exec (.bra fa r a) s)) ∧
  (∀ (s : State) (fa : Bool) (r a : RegAddr), opnd (readReg s a) fa = 0#16 →
    OnlyMovesPc s (nextPc s.pc) (exec (.bra fa r a) s)) ∧
  (∀ (s t u : State) (fa : Bool) (r a : RegAddr), s.run = .running → opnd (readReg s a) fa ≠ 0#16 →
    exec (.bra fa r a) s = .next t → 65532 < (readReg s r).toNat → step t = .next u →
    u.faultCause = .outOfBounds ∧ u.faultPc = readReg s r ∧ u.run = .halted)

/-! ## The ALU -/

/-- Operand preparation (R140). That the flag set selects the low 8 bits is the spec's own decision D3 (log entry 6). -/
def Obligations.OpndCutsToTheLowByte : Prop :=
  ∀ (v : Word16) (w : Bool), (opnd v w).toNat = if w then v.toNat % 256 else v.toNat

/-- `EQU`, `NEQ`, `GTN`, `LTN` (R172 to R175): `0xFFFF` where the unsigned relation of the prepared operands holds, else 0,
into `x[r]`; nothing else but `pc`. Operand order, unsignedness and the ignored flags are the spec's own decisions D5, D6,
D7 (log entry 6). -/
def Obligations.RelationalWritesAllOnesOrZero : Prop :=
  ∀ (fa fb fc : Bool) (r a b : RegAddr) (s : State),
    let A := (opnd (readReg s a) fa).toNat
    let B := (opnd (readReg s b) fa).toNat
    WritesReg sameEnv s r (fun v => v.toNat = if A = B then 65535 else 0) (exec (.equ fa fb fc r a b) s) ∧
    WritesReg sameEnv s r (fun v => v.toNat = if A ≠ B then 65535 else 0) (exec (.neq fa fb fc r a b) s) ∧
    WritesReg sameEnv s r (fun v => v.toNat = if B < A then 65535 else 0) (exec (.gtn fa fb fc r a b) s) ∧
    WritesReg sameEnv s r (fun v => v.toNat = if A < B then 65535 else 0) (exec (.ltn fa fb fc r a b) s)

/-- `ADD`, `SUB`, `MLT`, `INC`, `DEC` (R192 to R194, R197, R198): the exact result of the prepared operands modulo 2^16
into `x[r]`; nothing else but `pc`. The uncut narrow result, the operand order and the ignored flags are the spec's own
decisions D4, D5, D7 (log entry 6). -/
def Obligations.ArithmeticWrapsModulo65536 : Prop :=
  ∀ (fa fb fc : Bool) (r a b : RegAddr) (s : State),
    let A : Int := (opnd (readReg s a) fa).toNat
    let B : Int := (opnd (readReg s b) fa).toNat
    WritesReg sameEnv s r (fun v => (v.toNat : Int) = (A + B) % 65536) (exec (.add fa fb fc r a b) s) ∧
    WritesReg sameEnv s r (fun v => (v.toNat : Int) = (A - B) % 65536) (exec (.sub fa fb fc r a b) s) ∧
    WritesReg sameEnv s r (fun v => (v.toNat : Int) = (A * B) % 65536) (exec (.mlt fa fb fc r a b) s) ∧
    WritesReg sameEnv s r (fun v => (v.toNat : Int) = (A + 1) % 65536) (exec (.inc fa fb r a) s) ∧
    WritesReg sameEnv s r (fun v => (v.toNat : Int) = (A - 1) % 65536) (exec (.dec fa fb r a) s)

/-- `DIV` and `MOD` with a prepared divisor that is not 0 (R191, R195, R196): the unsigned quotient and remainder, with
`A = B*q + m` and `m < B`. Unsignedness, the operand order, the test on the prepared divisor and the ignored flags are the
spec's own decisions D5, D6, D7, D29 (log entry 6). -/
def Obligations.DivisionGivesQuotientAndRemainder : Prop :=
  ∀ (fa fb fc : Bool) (r a b : RegAddr) (s : State),
    let A := (opnd (readReg s a) fa).toNat
    let B := (opnd (readReg s b) fa).toNat
    B ≠ 0 → ∃ q m : Nat, A = B * q + m ∧ m < B ∧
      WritesReg sameEnv s r (fun v => v.toNat = q) (exec (.div fa fb fc r a b) s) ∧
      WritesReg sameEnv s r (fun v => v.toNat = m) (exec (.mod fa fb fc r a b) s)

/-- `DIV` and `MOD` with a prepared divisor of 0 (R195, R196): the fault entry, `x[r]` and `pc` unchanged. The test on the
prepared divisor, `pc` and the record's layout are the spec's own decisions D15, D16, D29 (log entries 6, 7 and 8). -/
def Obligations.DivisionByZeroTakesTheFault : Prop :=
  ∀ (fa fb fc : Bool) (r a b : RegAddr) (s : State), s.pc.toNat ≤ 65532 → opnd (readReg s b) fa = 0#16 →
    TakesFault sameEnv s .divideByZero (wordAtPc s) (exec (.div fa fb fc r a b) s) ∧
    TakesFault sameEnv s .divideByZero (wordAtPc s) (exec (.mod fa fb fc r a b) s)

/-- `EOR`, `AND`, `XOR`, `NOT` (R222 to R225), bit by bit over 16 bits of the prepared operands. The uncut narrow result
and the ignored flags are the spec's own decisions D4, D7 (log entry 6). -/
def Obligations.BitwiseActsOnEveryBit : Prop :=
  ∀ (fa fb fc : Bool) (r a b : RegAddr) (s : State),
    let A := opnd (readReg s a) fa
    let B := opnd (readReg s b) fa
    WritesReg sameEnv s r (fun v => ∀ k, k < 16 → v.getLsbD k = (A.getLsbD k || B.getLsbD k))
      (exec (.eor fa fb fc r a b) s) ∧
    WritesReg sameEnv s r (fun v => ∀ k, k < 16 → v.getLsbD k = (A.getLsbD k && B.getLsbD k))
      (exec (.and fa fb fc r a b) s) ∧
    WritesReg sameEnv s r (fun v => ∀ k, k < 16 → v.getLsbD k = (A.getLsbD k != B.getLsbD k))
      (exec (.xor fa fb fc r a b) s) ∧
    WritesReg sameEnv s r (fun v => ∀ k, k < 16 → v.getLsbD k = !A.getLsbD k) (exec (.not fa fb r a) s)

/-- `LSH` and `RSH` (R226, R227): the exact shift of the prepared operands, narrowed; 16 or more gives 0. The shift amount,
the operand order and the ignored flags are the spec's own decisions D5, D7, D8 (log entry 6). -/
def Obligations.LogicalShiftsByTheWholeAmount : Prop :=
  ∀ (fa fb fc : Bool) (r a b : RegAddr) (s : State),
    let A := (opnd (readReg s a) fa).toNat
    let B := (opnd (readReg s b) fa).toNat
    WritesReg sameEnv s r (fun v => v.toNat = if 16 ≤ B then 0 else A * 2 ^ B % 65536)
      (exec (.lsh fa fb fc r a b) s) ∧
    WritesReg sameEnv s r (fun v => v.toNat = if 16 ≤ B then 0 else A / 2 ^ B) (exec (.rsh fa fb fc r a b) s)

/-- `ROT` (R228): every bit moves up by one and bit 15 to bit 0. The amount, the direction and the 16-bit ring are the
spec's own decision D10, the ignored flag D7 (log entry 6). -/
def Obligations.RotMovesEveryBitUpByOne : Prop :=
  ∀ (fa fb : Bool) (r a : RegAddr) (s : State),
    let A := opnd (readReg s a) fa
    WritesReg sameEnv s r (fun v => ∀ k, k < 16 → v.getLsbD ((k + 1) % 16) = A.getLsbD k) (exec (.rot fa fb r a) s)

/-- `CAS` (R229): bits from the amount up are the prepared operand's, bits below it are `c_flag`. The flag, the direction
and the amount are the spec's own decisions D8, D9, the ignored flag D7 (log entry 6). -/
def Obligations.CasFillsVacatedBitsWithTheFlag : Prop :=
  ∀ (fa fb fc : Bool) (r a b : RegAddr) (s : State),
    let A := opnd (readReg s a) fa
    let B := (opnd (readReg s b) fa).toNat
    WritesReg sameEnv s r (fun v => ∀ k, k < 16 → v.getLsbD k = if k < B then fc else A.getLsbD (k - B))
      (exec (.cas fa fb fc r a b) s)

/-! ## Move and memory -/

/-- The access primitives (R60, R61): a read of `n` bytes gives the bytes at `addr` to `addr + n - 1` in rising order, a
write of a list of bytes puts them there in that order, leaves every other byte and keeps memory canonical. That four
bytes make a word with the first most significant is how R60 concatenates them. -/
def Obligations.MemoryPrimitivesActByteByByte : Prop :=
  (∀ (m : Memory) (addr n k : Nat), (memRead m addr n).length = n ∧
    (k < n → (memRead m addr n)[k]? = some (m.read (addr + k)))) ∧
  (∀ (m : Memory) (addr : Nat) (raw : List Byte), m.wf = true → addr + raw.length ≤ 65536 →
    (memWrite m addr raw).wf = true ∧
    (∀ k (h : k < raw.length), (memWrite m addr raw).read (addr + k) = raw[k]) ∧
    (∀ other, other < addr ∨ addr + raw.length ≤ other → (memWrite m addr raw).read other = m.read other)) ∧
  (∀ (m : Memory) (addr : Nat), (wordOfList (memRead m addr 4)).toNat = (m.read addr).toNat * 2 ^ 24 +
    (m.read (addr + 1)).toNat * 2 ^ 16 + (m.read (addr + 2)).toNat * 2 ^ 8 + (m.read (addr + 3)).toNat)

/-- R250: `SET`, `COP`, `LOD` and `SAV` raise no fault in any state; fetched, they complete. -/
def Obligations.MovesRaiseNoFault : Prop :=
  (∀ (i : Instr) (s : State), opcodeOf i ∈ [Opcode.set, .cop, .lod, .sav] →
    ∃ t, exec i s = .next t ∧ sameStatus s t) ∧
  (∀ (s t : State), s.run = .running → s.faultCause = .none → step s = .next t → t.faultCause ≠ .none →
    (s.pc.toNat ≤ 65532 → ∃ i, AboutToRun s i ∧ opcodeOf i ∈ [Opcode.set, .cop, .lod, .sav]) →
    t.faultCause = .outOfBounds)

/-- `SET` and `COP` (R253, R254): the literal, or all 16 bits of `x[a]`, into `x[r]`; nothing else but `pc`. The ignored
flags are the spec's own decision D7 (log entry 6). -/
def Obligations.SetAndCopWriteTheWholeValue : Prop :=
  ∀ (fa fb : Bool) (r a : RegAddr) (l : Word16) (s : State),
    WritesReg sameEnv s r (fun v => v = l) (exec (.set fa r l) s) ∧
    WritesReg sameEnv s r (fun v => v = readReg s a) (exec (.cop fa fb r a) s)

/-- `LOD` (R255): the byte at the address `x[a]` held before, zero-extended, into `x[r]`; nothing else but `pc`. The byte
width is the spec's own decision D11, the ignored flags D7 (log entries 6 and 7). -/
def Obligations.LodReadsOneByte : Prop :=
  ∀ (fa fb : Bool) (r a : RegAddr) (s : State),
    WritesReg sameEnv s r (fun v => v.toNat = (s.mem.read (readReg s a).toNat).toNat) (exec (.lod fa fb r a) s)

/-- `SAV` (R256): the low byte of `x[r]` at the address `x[a]`, every other byte of memory and every register unchanged, and
memory stays canonical. The byte width is the spec's own decision D11, the ignored flags D7 (log entries 6 and 7). -/
def Obligations.SavStoresOneByte : Prop :=
  ∀ (fa fb : Bool) (r a : RegAddr) (s : State), s.mem.wf = true →
    ∃ t, exec (.sav fa fb r a) s = .next t ∧ t.pc = nextPc s.pc ∧
      (t.mem.read (readReg s a).toNat).toNat = (readReg s r).toNat % 256 ∧
      (∀ addr, addr ≠ (readReg s a).toNat → t.mem.read addr = s.mem.read addr) ∧
      sameRegs s t ∧ sameStatus s t ∧ sameEnv s t ∧ t.mem.wf = true

/-- A `LOD` returns the byte of the `SAV` before it (R71). The byte width is the spec's own decision D11 (log entry 7). -/
def Obligations.LoadAfterSaveReadsTheByte : Prop :=
  ∀ (fa fb fa' fb' : Bool) (r a r' a' : RegAddr) (s t : State), s.mem.wf = true → readReg s a' = readReg s a →
    exec (.sav fa fb r a) s = .next t →
    WritesReg sameEnv t r' (fun v => v.toNat = (readReg s r).toNat % 256) (exec (.lod fa' fb' r' a') t)

/-- A byte written by `SAV` is seen by the next fetch: the next step runs the four bytes at the default next address (0
after a `SAV` at 65532), the saved byte in its place; where that address is above 65532, it takes `OUT_OF_BOUNDS`. Fetch
coherence, the wrap and the raw word 0 are the spec's own decisions D27, D12, D28 (log entries 7 and 8). -/
def Obligations.SavedByteIsFetchedNext : Prop :=
  ∀ (fa fb : Bool) (r a : RegAddr) (s t : State), s.mem.wf = true →
    AboutToRun s (.sav fa fb r a) → step s = .next t →
    let next : Nat := (s.pc.toNat + 4) % 65536
    let byte : Nat → Byte := fun k =>
      if next + k = (readReg s a).toNat then lowByte (readReg s r) else s.mem.read (next + k)
    (next ≤ 65532 → ∃ i, decode [byte 0, byte 1, byte 2, byte 3] = .ok i ∧ step t = exec i t) ∧
    (65532 < next → TakesFault sameEnv t .outOfBounds 0#32 (step t))

/-! ## Status query and data channel -/

/-- `QOP` (R275): the drawn value, whatever it is, into `x[r]`, one draw made, nothing else but `pc`. The value is free: it
is every value the environment may have lined up, and else the constant `QOP_STATUS` of this draw and these flags, of which
nothing is known (log entry 1). -/
def Obligations.QopWritesTheDrawnValue : Prop :=
  ∀ (fa fb fc : Bool) (r : RegAddr) (s : State),
    let oneDraw : State → State → Prop := fun s t => t.portLog = s.portLog ∧ t.portAnswers = s.portAnswers ∧
      t.qopAnswers = s.qopAnswers.tail ∧ t.draws = s.draws + 1
    (∀ (value : Word16) (rest : List Word16), s.qopAnswers = value :: rest →
      WritesReg oneDraw s r (fun v => v = value) (exec (.qop fa fb fc r) s)) ∧
    (s.qopAnswers = [] →
      WritesReg oneDraw s r (fun v => v = Config.qopStatus s.draws fa fb fc) (exec (.qop fa fb fc r) s))

/-- `QDC`, `CDC` and `REA` answered `Ok(data)` (R277 to R279): the request with the uncut register values is sent, the data
written to `x[r]`, nothing else but `pc`. The mapping is the spec's own decision D21 (log entry 8). -/
def Obligations.ChannelAnswerIsWritten : Prop :=
  ∀ (fa fb fc : Bool) (r a b : RegAddr) (s : State) (data : Word16),
    let query : PortRequest := ⟨.query, readReg s a, readReg s b, ⟨fa, fb, fc⟩⟩
    let configure : PortRequest := ⟨.configure, readReg s a, readReg s b, ⟨fa, fb, fc⟩⟩
    let read : PortRequest := ⟨.read, readReg s a, 0#16, ⟨false, false, false⟩⟩
    (portResponse s query = .ok data →
      WritesReg (sent query) s r (fun v => v = data) (exec (.qdc fa fb fc r a b) s)) ∧
    (portResponse s configure = .ok data →
      WritesReg (sent configure) s r (fun v => v = data) (exec (.cdc fa fb fc r a b) s)) ∧
    (portResponse s read = .ok data →
      WritesReg (sent read) s r (fun v => v = data) (exec (.rea r a) s))

/-- `WRI` answered `Ok` (R280): `x[r]` is sent to the channel `x[a]`, no register written, nothing else but `pc`. The
mapping is the spec's own decision D21 (log entry 8). -/
def Obligations.WriSendsAndWritesNoRegister : Prop :=
  ∀ (r a : RegAddr) (s : State) (data : Word16),
    let write : PortRequest := ⟨.write, readReg s a, readReg s r, ⟨false, false, false⟩⟩
    portResponse s write = .ok data →
      ∃ t, exec (.wri r a) s = .next t ∧ t.pc = nextPc s.pc ∧ sameRegs s t ∧ sameMem s t ∧ sameStatus s t ∧
        sent write s t

/-- A data-channel instruction answered `Fail` takes `PORT_FAULT`, its request staying sent (R272, R304). Both are the
spec's own decisions D15, D16, D22 (log entries 7 and 8). -/
def Obligations.FailedRequestTakesTheFault : Prop :=
  ∀ (i : Instr) (s : State) (req : PortRequest), s.pc.toNat ≤ 65532 → requestOf s i = some req →
    portResponse s req = .fail → TakesFault (sent req) s .portFault (wordAtPc s) (exec i s)

/-! ## What the boundary shows -/

/-- The status outputs (R8, R39, R300): `fault_cause` is the code of the recorded cause, `fault_pc` and `fault_raw` the
record's. The codes are the spec's own decision D16 (log entry 8). -/
def Obligations.StatusOutputsShowTheRecord : Prop :=
  ∀ s : State,
    (s.faultCause = .none → (statusOutputs s).faultCause = 0#3) ∧
    (s.faultCause = .decodeError → (statusOutputs s).faultCause = 1#3) ∧
    (s.faultCause = .divideByZero → (statusOutputs s).faultCause = 2#3) ∧
    (s.faultCause = .outOfBounds → (statusOutputs s).faultCause = 3#3) ∧
    (s.faultCause = .portFault → (statusOutputs s).faultCause = 4#3) ∧
    (statusOutputs s).faultPc = s.faultPc ∧ (statusOutputs s).faultRaw = s.faultRaw

/-- The request the port sees (R270): whatever the port answers, each data-channel instruction adds one request to the
history, with its `op` code, the uncut register values and its flags. The codes, the widths and the mapping are the spec's
own decisions D21, D30 (log entry 8). -/
def Obligations.RequestsCarryTheirCodes : Prop :=
  ∀ (fa fb fc : Bool) (r a b : RegAddr) (s : State),
    let sends : RequestOutputs → Instr → Prop := fun shown i =>
      ∃ t req, exec i s = .next t ∧ t.portLog = req :: s.portLog ∧ requestOutputs req = shown
    sends ⟨0#2, readReg s a, readReg s b, ⟨fa, fb, fc⟩⟩ (.qdc fa fb fc r a b) ∧
    sends ⟨1#2, readReg s a, readReg s b, ⟨fa, fb, fc⟩⟩ (.cdc fa fb fc r a b) ∧
    sends ⟨2#2, readReg s a, 0#16, ⟨false, false, false⟩⟩ (.rea r a) ∧
    sends ⟨3#2, readReg s a, readReg s r, ⟨false, false, false⟩⟩ (.wri r a)

/-- The port's answers are free (R271): every answer the environment may have lined up is the port's answer to the next
request, whatever the request. That is the model's form of the open parameter `PORT` (log entry 2). -/
def Obligations.EveryLinedUpAnswerIsGiven : Prop :=
  ∀ (s : State) (req : PortRequest) (answer : PortResponse) (rest : List PortResponse),
    s.portAnswers = answer :: rest → portResponse s req = answer
end

