-- ==== Sys2Proof/Laws/Decode.lean ====
section
/-! SUPPORT. The small laws of decoding: the opcode numbers and the dispatch table agree, every instruction is
well-formed, its record names its opcode and gives the instruction back. -/

namespace Sys2Proof

@[simp] theorem opcodeOfNat_code (op : Opcode) : opcodeOfNat op.code.toNat = some op := by
  cases op <;> rfl

/-- The dispatch table has an opcode for every value of the 5-bit field (R99). -/
theorem opcodeOfNat_of_lt {n : Nat} (h : n < 32) : ∃ op, opcodeOfNat n = some op ∧ op.code.toNat = n := by
  interval_cases n <;> exact ⟨_, rfl, rfl⟩

@[simp] theorem keep_true {n : Nat} (v : BitVec n) : keep true v = v := rfl
@[simp] theorem keep_false {n : Nat} (v : BitVec n) : keep false v = 0#n := rfl

@[simp] theorem instrOfRecord_recordOfInstr (i : Instr) : instrOfRecord (recordOfInstr i) = i := by
  cases i <;> rfl

/-! Bytes and words -/

/-- The bits of `W` (R90), by byte. -/
theorem wordOfBytes_getLsbD (a b c d : Byte) (k : Nat) :
    (wordOfBytes a b c d).getLsbD k =
      if k < 8 then d.getLsbD k else if k < 16 then c.getLsbD (k - 8)
      else if k < 24 then b.getLsbD (k - 16) else a.getLsbD (k - 24) := by
  show BitVec.getLsbD (w := 8 + 8 + 8 + 8) (a ++ b ++ c ++ d) k = _
  rw [BitVec.getLsbD_append, BitVec.getLsbD_append, BitVec.getLsbD_append]
  by_cases h1 : k < 8
  · simp [h1]
  · by_cases h2 : k < 16
    · simp [h1, h2, show k - 8 < 8 by omega]
    · by_cases h3 : k < 24
      · simp [h1, h2, h3, show ¬ (k - 8 < 8) by omega, show k - 8 - 8 = k - 16 by omega,
          show k - 16 < 8 by omega]
      · simp [h1, h2, h3, show ¬ (k - 8 < 8) by omega, show ¬ (k - 8 - 8 < 8) by omega, show k - 8 - 8 - 8 = k - 24 by omega]

/-- The bytes of the word of four bytes (R90). -/
theorem bytesOfWord_wordOfBytes (a b c d : Byte) : bytesOfWord (wordOfBytes a b c d) = [a, b, c, d] := by
  have byte : ∀ (p : Nat) (x : Byte), (∀ k, k < 8 → (wordOfBytes a b c d).getLsbD (p + k) = x.getLsbD k) →
      (wordOfBytes a b c d).extractLsb' p 8 = x := fun p x h =>
    BitVec.eq_of_getLsbD_eq fun k hk => by rw [BitVec.getLsbD_extractLsb', h k hk]; simp [hk]
  unfold bytesOfWord
  rw [byte 24 a, byte 16 b, byte 8 c, byte 0 d] <;> intro k hk <;> rw [wordOfBytes_getLsbD] <;>
    simp [hk, show ¬ (24 + k < 8) by omega, show ¬ (24 + k < 16) by omega, show ¬ (16 + k < 8) by omega,
      show ¬ (16 + k < 16) by omega, show ¬ (8 + k < 8) by omega, show 8 + k < 16 by omega, show 16 + k < 24 by omega]

/-- The word of the four bytes of a word (R90). -/
theorem wordOfBytes_bytesOfWord (w : Word32) :
    wordOfBytes (w.extractLsb' 24 8) (w.extractLsb' 16 8) (w.extractLsb' 8 8) (w.extractLsb' 0 8) = w := by
  refine BitVec.eq_of_getLsbD_eq fun k hk => ?_
  rw [wordOfBytes_getLsbD]
  simp only [BitVec.getLsbD_extractLsb']
  split_ifs with h1 h2 h3
  · simp [h1]
  · simp [show k - 8 < 8 by omega, show 8 + (k - 8) = k by omega]
  · simp [show k - 16 < 8 by omega, show 16 + (k - 16) = k by omega]
  · simp [show k - 24 < 8 by omega, show 24 + (k - 24) = k by omega]

/-- Byte 0 of an encoding holds the opcode's number and the three flags (R91). -/
theorem encodeByte0_fields (op : Opcode) (fa fb fc : Bool) :
    opcodeField (encodeByte0 op fa fb fc) = op.code ∧ rawFlagA (encodeByte0 op fa fb fc) = fa ∧
      rawFlagB (encodeByte0 op fa fb fc) = fb ∧ rawFlagC (encodeByte0 op fa fb fc) = fc := by
  cases op <;> cases fa <;> cases fb <;> cases fc <;> exact ⟨rfl, rfl, rfl, rfl⟩

/-- Byte 0 is put together again from the fields cut from it (R91, R93). -/
theorem encodeByte0_decoded (raw0 : Byte) (op : Opcode) (h : opcodeField raw0 = op.code) :
    encodeByte0 op (rawFlagA raw0) (rawFlagB raw0) (rawFlagC raw0) = raw0 := by
  have : ∀ x : Byte, opcodeField x ++ BitVec.ofBool (rawFlagA x) ++ BitVec.ofBool (rawFlagB x) ++ BitVec.ofBool (rawFlagC x) = x := by decide
  unfold encodeByte0; rw [← h]; exact this raw0

/-- The literal of its own two bytes (R96). -/
theorem literal_bytes (l : Word16) : literal (l.extractLsb' 8 8) (l.extractLsb' 0 8) = l := by
  refine BitVec.eq_of_getLsbD_eq fun k hk => ?_
  show BitVec.getLsbD (w := 8 + 8) (_ ++ _) k = _
  rw [BitVec.getLsbD_append]
  simp only [BitVec.getLsbD_extractLsb']
  split_ifs with h1 
  · simp [h1]
  · simp [show k - 8 < 8 by omega, show 8 + (k - 8) = k by omega]

/-- The two bytes of a literal (R96). -/
theorem bytes_literal (a b : Byte) : (literal a b).extractLsb' 8 8 = a ∧ (literal a b).extractLsb' 0 8 = b := by
  constructor <;> refine BitVec.eq_of_getLsbD_eq fun k hk => ?_ <;>
    rw [BitVec.getLsbD_extractLsb', show (literal a b).getLsbD = BitVec.getLsbD (w := 8 + 8) (a ++ b) from rfl, BitVec.getLsbD_append]
  · simp [hk, show ¬ (8 + k < 8) by omega]
  · simp [hk]

end Sys2Proof
end

