-- ==== Sys2Proof/Laws/Memory.lean ====
section
/-! SUPPORT. The laws of memory: a read after a write, the canonical form kept by every memory operation, equal reads
of canonical memories give equal memories, and what an image's memory holds. -/

namespace Sys2Proof.Machine

@[simp] theorem Memory.read_nil (addr : Nat) : Memory.read [] addr = unlistedByte := rfl

theorem Memory.read_cons (k : Nat) (c : Byte) (m : Memory) (addr : Nat) :
    Memory.read ((k, c) :: m) addr = if addr = k then c else m.read addr := rfl

/-- The canonical form, one entry peeled off. -/
theorem Memory.wfFrom_cons {lo k : Nat} {c : Byte} {m : Memory} :
    Memory.wfFrom lo ((k, c) :: m) = true ↔
      lo ≤ k ∧ k < 65536 ∧ c ≠ unlistedByte ∧ Memory.wfFrom (k + 1) m = true := by
  simp [Memory.wfFrom, and_assoc]

theorem Memory.wfFrom_mono {lo lo' : Nat} (h : lo ≤ lo') {m : Memory} (hm : Memory.wfFrom lo' m = true) :
    Memory.wfFrom lo m = true := by
  cases m with
  | nil => rfl
  | cons e m => rw [Memory.wfFrom_cons] at *; exact ⟨by omega, hm.2⟩

/-- Below the first listed address every byte is unlisted. -/
theorem Memory.read_below {lo : Nat} {m : Memory} (hm : Memory.wfFrom lo m = true) {addr : Nat} (h : addr < lo) :
    m.read addr = unlistedByte := by
  induction m generalizing lo with
  | nil => rfl
  | cons e m ih =>
    rw [Memory.wfFrom_cons] at hm
    rw [Memory.read_cons, if_neg (by omega)]
    exact ih hm.2.2.2 (by omega)

/-- A read after a write, on canonical memory. -/
theorem Memory.read_write {lo : Nat} {m : Memory} (hm : Memory.wfFrom lo m = true) (addr addr' : Nat) (v : Byte) :
    (m.write addr v).read addr' = if addr' = addr then v else m.read addr' := by
  induction m generalizing lo with
  | nil =>
    by_cases hv : v = unlistedByte <;> simp [Memory.write, hv, Memory.read_cons]
  | cons e m ih =>
    obtain ⟨k, c⟩ := e
    have hm1 := (Memory.wfFrom_cons.1 hm).2.2.2
    have head : Memory.wfFrom k ((k, c) :: m) = true :=
      Memory.wfFrom_cons.2 ⟨le_rfl, (Memory.wfFrom_cons.1 hm).2⟩
    rcases Nat.lt_trichotomy addr k with hlt | heq | hgt
    · have hw : Memory.write ((k, c) :: m) addr v =
          if v = unlistedByte then (k, c) :: m else (addr, v) :: (k, c) :: m := by
        rw [Memory.write, if_pos hlt]
      rw [hw]
      by_cases hv : v = unlistedByte
      · rw [if_pos hv]
        by_cases hx : addr' = addr
        · rw [if_pos hx, hx, Memory.read_below head hlt, hv]
        · rw [if_neg hx]
      · rw [if_neg hv, Memory.read_cons]
    · subst heq
      have hw : Memory.write ((addr, c) :: m) addr v = if v = unlistedByte then m else (addr, v) :: m := by
        rw [Memory.write, if_neg (Nat.lt_irrefl _), if_pos rfl]
      rw [hw, Memory.read_cons addr c]
      by_cases hv : v = unlistedByte
      · rw [if_pos hv]
        by_cases hx : addr' = addr
        · rw [if_pos hx, hx, Memory.read_below hm1 (Nat.lt_succ_self _), hv]
        · rw [if_neg hx, if_neg hx]
      · rw [if_neg hv, Memory.read_cons]
        by_cases hx : addr' = addr
        · rw [if_pos hx, if_pos hx]
        · rw [if_neg hx, if_neg hx, if_neg hx]
    · have hw : Memory.write ((k, c) :: m) addr v = (k, c) :: Memory.write m addr v := by
        rw [Memory.write, if_neg (Nat.not_lt_of_gt hgt), if_neg (Nat.ne_of_gt hgt)]
      rw [hw, Memory.read_cons, Memory.read_cons, ih hm1]
      by_cases hx : addr' = addr
      · rw [if_pos hx, if_pos hx, if_neg (by omega)]
      · rw [if_neg hx, if_neg hx]

/-- A write at or after `lo` and inside memory keeps the canonical form from `lo` on. -/
theorem Memory.wfFrom_write {lo : Nat} {m : Memory} (hm : Memory.wfFrom lo m = true) {addr : Nat} (hlo : lo ≤ addr)
    (ha : addr < 65536) (v : Byte) : Memory.wfFrom lo (m.write addr v) = true := by
  induction m generalizing lo with
  | nil =>
    by_cases hv : v = unlistedByte
    · simp [Memory.write, hv, Memory.wfFrom]
    · simp [Memory.write, hv, Memory.wfFrom, hlo, ha]
  | cons e m ih =>
    obtain ⟨k, c⟩ := e
    have hm' := hm
    rw [Memory.wfFrom_cons] at hm
    obtain ⟨h0, hk, hc, hm1⟩ := hm
    rw [Memory.write]
    split_ifs with h1 hv h2 hv
    · exact hm'
    · rw [Memory.wfFrom_cons, Memory.wfFrom_cons]; exact ⟨hlo, ha, hv, by omega, hk, hc, hm1⟩
    · exact Memory.wfFrom_mono (by omega) hm1
    · rw [Memory.wfFrom_cons]; exact ⟨hlo, ha, hv, h2 ▸ hm1⟩
    · rw [Memory.wfFrom_cons]; exact ⟨h0, hk, hc, ih hm1 (by omega)⟩

/-- A write inside memory keeps the canonical form. -/
theorem Memory.wf_write {m : Memory} (hm : m.wf = true) {addr : Nat} (ha : addr < 65536) (v : Byte) :
    (m.write addr v).wf = true := Memory.wfFrom_write hm (Nat.zero_le _) ha v

/-- A run of writes inside memory keeps the canonical form. -/
theorem memWrite_wf (bs : List Byte) {m : Memory} (hm : m.wf = true) {addr : Nat} (ha : addr + bs.length ≤ 65536) :
    (memWrite m addr bs).wf = true := by
  induction bs generalizing m addr with
  | nil => exact hm
  | cons b bs ih =>
    simp only [List.length_cons] at ha
    exact ih (Memory.wf_write hm (by omega) b) (by omega)

/-- The memory of an effect keeps the canonical form. -/
theorem commitMem_wf {m : Memory} (hm : m.wf = true) (w : Option (Word16 × Byte)) : (commitMem m w).wf = true := by
  cases w with
  | none => exact hm
  | some p => exact memWrite_wf [p.2] hm (by have := p.1.isLt; simp; omega)

/-- Canonical memories that read alike are equal. -/
theorem Memory.ext_of_wfFrom {lo lo' : Nat} {m m' : Memory} (hm : Memory.wfFrom lo m = true)
    (hm' : Memory.wfFrom lo' m' = true) (h : ∀ addr, m.read addr = m'.read addr) : m = m' := by
  induction m generalizing lo lo' m' with
  | nil =>
    cases m' with
    | nil => rfl
    | cons e' m' =>
      obtain ⟨k', c'⟩ := e'
      exact absurd (h k').symm (by simp [Memory.read_cons, (Memory.wfFrom_cons.1 hm').2.2.1])
  | cons e m ih =>
    obtain ⟨k, c⟩ := e
    obtain ⟨-, hk, hc, hm1⟩ := Memory.wfFrom_cons.1 hm
    cases m' with
    | nil => exact absurd (h k) (by simp [Memory.read_cons, hc])
    | cons e' m' =>
      obtain ⟨k', c'⟩ := e'
      obtain ⟨-, hk', hc', hm1'⟩ := Memory.wfFrom_cons.1 hm'
      have hkk : k = k' := by
        rcases Nat.lt_trichotomy k k' with hlt | heq | hgt
        · have := h k
          rw [Memory.read_cons, if_pos rfl,
            Memory.read_below (lo := k') (Memory.wfFrom_cons.2 ⟨le_rfl, hk', hc', hm1'⟩) hlt] at this
          exact absurd this hc
        · exact heq
        · have := h k'
          rw [Memory.read_cons (k := k'), if_pos rfl,
            Memory.read_below (lo := k) (Memory.wfFrom_cons.2 ⟨le_rfl, hk, hc, hm1⟩) hgt] at this
          exact absurd this.symm hc'
      subst hkk
      have hcc : c = c' := by simpa [Memory.read_cons] using h k
      have : m = m' := ih hm1 hm1' fun addr => by
        by_cases hx : addr = k
        · subst hx; rw [Memory.read_below hm1 (Nat.lt_succ_self _), Memory.read_below hm1' (Nat.lt_succ_self _)]
        · simpa [Memory.read_cons, hx] using h addr
      rw [hcc, this]

/-- The memory of an image is canonical. -/
theorem Memory.wfFrom_ofImage (image : List Byte) {addr : Nat} (h : addr + image.length ≤ 65536) :
    Memory.wfFrom addr (Memory.ofImage addr image) = true := by
  induction image generalizing addr with
  | nil => rfl
  | cons b bs ih =>
    simp only [List.length_cons] at h
    rw [Memory.ofImage]
    split_ifs with hb
    · exact Memory.wfFrom_mono (Nat.le_succ _) (ih (by omega))
    · rw [Memory.wfFrom_cons]; exact ⟨le_rfl, by omega, hb, ih (by omega)⟩

end Sys2Proof.Machine
end

