-- ==== Sys2Proof/Laws/State.lean ====
section
/-! SUPPORT. One lemma per field of State per update of Machine/Ops.lean, so that no proof unfolds a record update. -/

namespace Sys2Proof.Machine

/-! `writeReg` -/

@[simp] theorem writeReg_regs (s : State) (i : RegAddr) (v : Word16) : (writeReg s i v).regs = setReg s.regs i v := rfl
@[simp] theorem writeReg_pc (s : State) (i : RegAddr) (v : Word16) : (writeReg s i v).pc = s.pc := rfl
@[simp] theorem writeReg_mem (s : State) (i : RegAddr) (v : Word16) : (writeReg s i v).mem = s.mem := rfl
@[simp] theorem writeReg_run (s : State) (i : RegAddr) (v : Word16) : (writeReg s i v).run = s.run := rfl
@[simp] theorem writeReg_faultCause (s : State) (i : RegAddr) (v : Word16) : (writeReg s i v).faultCause = s.faultCause := rfl
@[simp] theorem writeReg_faultPc (s : State) (i : RegAddr) (v : Word16) : (writeReg s i v).faultPc = s.faultPc := rfl
@[simp] theorem writeReg_faultRaw (s : State) (i : RegAddr) (v : Word16) : (writeReg s i v).faultRaw = s.faultRaw := rfl
@[simp] theorem writeReg_portLog (s : State) (i : RegAddr) (v : Word16) : (writeReg s i v).portLog = s.portLog := rfl
@[simp] theorem writeReg_portAnswers (s : State) (i : RegAddr) (v : Word16) : (writeReg s i v).portAnswers = s.portAnswers := rfl
@[simp] theorem writeReg_qopAnswers (s : State) (i : RegAddr) (v : Word16) : (writeReg s i v).qopAnswers = s.qopAnswers := rfl
@[simp] theorem writeReg_draws (s : State) (i : RegAddr) (v : Word16) : (writeReg s i v).draws = s.draws := rfl

/-! `commit` -/

@[simp] theorem commit_regs (s : State) (e : Effect) : (commit s e).regs = commitRegs s.regs e.wreg := rfl
@[simp] theorem commit_pc (s : State) (e : Effect) : (commit s e).pc = if e.halt then s.pc else e.pcNext := rfl
@[simp] theorem commit_mem (s : State) (e : Effect) : (commit s e).mem = commitMem s.mem e.wmem := rfl
@[simp] theorem commit_run (s : State) (e : Effect) : (commit s e).run = if e.halt then .halted else s.run := rfl
@[simp] theorem commit_faultCause (s : State) (e : Effect) : (commit s e).faultCause = s.faultCause := rfl
@[simp] theorem commit_faultPc (s : State) (e : Effect) : (commit s e).faultPc = s.faultPc := rfl
@[simp] theorem commit_faultRaw (s : State) (e : Effect) : (commit s e).faultRaw = s.faultRaw := rfl
@[simp] theorem commit_portLog (s : State) (e : Effect) : (commit s e).portLog = s.portLog := rfl
@[simp] theorem commit_portAnswers (s : State) (e : Effect) : (commit s e).portAnswers = s.portAnswers := rfl
@[simp] theorem commit_qopAnswers (s : State) (e : Effect) : (commit s e).qopAnswers = s.qopAnswers := rfl
@[simp] theorem commit_draws (s : State) (e : Effect) : (commit s e).draws = s.draws := rfl

/-! `raiseFault` -/

@[simp] theorem raiseFault_regs (s : State) (c : FaultCause) : (raiseFault s c).regs = s.regs := rfl
@[simp] theorem raiseFault_pc (s : State) (c : FaultCause) : (raiseFault s c).pc = s.pc := rfl
@[simp] theorem raiseFault_mem (s : State) (c : FaultCause) : (raiseFault s c).mem = s.mem := rfl
@[simp] theorem raiseFault_run (s : State) (c : FaultCause) : (raiseFault s c).run = .halted := rfl
@[simp] theorem raiseFault_faultCause (s : State) (c : FaultCause) : (raiseFault s c).faultCause = c := rfl
@[simp] theorem raiseFault_faultPc (s : State) (c : FaultCause) : (raiseFault s c).faultPc = s.pc := rfl
@[simp] theorem raiseFault_faultRaw (s : State) (c : FaultCause) : (raiseFault s c).faultRaw = if c = .outOfBounds then 0#32 else rawAtPc s := rfl
@[simp] theorem raiseFault_portLog (s : State) (c : FaultCause) : (raiseFault s c).portLog = s.portLog := rfl
@[simp] theorem raiseFault_portAnswers (s : State) (c : FaultCause) : (raiseFault s c).portAnswers = s.portAnswers := rfl
@[simp] theorem raiseFault_qopAnswers (s : State) (c : FaultCause) : (raiseFault s c).qopAnswers = s.qopAnswers := rfl
@[simp] theorem raiseFault_draws (s : State) (c : FaultCause) : (raiseFault s c).draws = s.draws := rfl

/-! `applyReset` -/

@[simp] theorem applyReset_regs (s : State) : (applyReset s).regs = Vector.replicate 256 0#16 := rfl
@[simp] theorem applyReset_pc (s : State) : (applyReset s).pc = 0#16 := rfl
@[simp] theorem applyReset_mem (s : State) : (applyReset s).mem = s.mem := rfl
@[simp] theorem applyReset_run (s : State) : (applyReset s).run = .running := rfl
@[simp] theorem applyReset_faultCause (s : State) : (applyReset s).faultCause = .none := rfl
@[simp] theorem applyReset_faultPc (s : State) : (applyReset s).faultPc = 0#16 := rfl
@[simp] theorem applyReset_faultRaw (s : State) : (applyReset s).faultRaw = 0#32 := rfl
@[simp] theorem applyReset_portLog (s : State) : (applyReset s).portLog = s.portLog := rfl
@[simp] theorem applyReset_portAnswers (s : State) : (applyReset s).portAnswers = s.portAnswers := rfl
@[simp] theorem applyReset_qopAnswers (s : State) : (applyReset s).qopAnswers = s.qopAnswers := rfl
@[simp] theorem applyReset_draws (s : State) : (applyReset s).draws = s.draws := rfl

/-! `sendRequest` -/

@[simp] theorem sendRequest_regs (s : State) (req : PortRequest) : (sendRequest s req).regs = s.regs := rfl
@[simp] theorem sendRequest_pc (s : State) (req : PortRequest) : (sendRequest s req).pc = s.pc := rfl
@[simp] theorem sendRequest_mem (s : State) (req : PortRequest) : (sendRequest s req).mem = s.mem := rfl
@[simp] theorem sendRequest_run (s : State) (req : PortRequest) : (sendRequest s req).run = s.run := rfl
@[simp] theorem sendRequest_faultCause (s : State) (req : PortRequest) : (sendRequest s req).faultCause = s.faultCause := rfl
@[simp] theorem sendRequest_faultPc (s : State) (req : PortRequest) : (sendRequest s req).faultPc = s.faultPc := rfl
@[simp] theorem sendRequest_faultRaw (s : State) (req : PortRequest) : (sendRequest s req).faultRaw = s.faultRaw := rfl
@[simp] theorem sendRequest_portLog (s : State) (req : PortRequest) : (sendRequest s req).portLog = req :: s.portLog := rfl
@[simp] theorem sendRequest_portAnswers (s : State) (req : PortRequest) : (sendRequest s req).portAnswers = s.portAnswers.tail := rfl
@[simp] theorem sendRequest_qopAnswers (s : State) (req : PortRequest) : (sendRequest s req).qopAnswers = s.qopAnswers := rfl
@[simp] theorem sendRequest_draws (s : State) (req : PortRequest) : (sendRequest s req).draws = s.draws + 1 := rfl

/-! `drawQop` -/

@[simp] theorem drawQop_regs (s : State) : (drawQop s).regs = s.regs := rfl
@[simp] theorem drawQop_pc (s : State) : (drawQop s).pc = s.pc := rfl
@[simp] theorem drawQop_mem (s : State) : (drawQop s).mem = s.mem := rfl
@[simp] theorem drawQop_run (s : State) : (drawQop s).run = s.run := rfl
@[simp] theorem drawQop_faultCause (s : State) : (drawQop s).faultCause = s.faultCause := rfl
@[simp] theorem drawQop_faultPc (s : State) : (drawQop s).faultPc = s.faultPc := rfl
@[simp] theorem drawQop_faultRaw (s : State) : (drawQop s).faultRaw = s.faultRaw := rfl
@[simp] theorem drawQop_portLog (s : State) : (drawQop s).portLog = s.portLog := rfl
@[simp] theorem drawQop_portAnswers (s : State) : (drawQop s).portAnswers = s.portAnswers := rfl
@[simp] theorem drawQop_qopAnswers (s : State) : (drawQop s).qopAnswers = s.qopAnswers.tail := rfl
@[simp] theorem drawQop_draws (s : State) : (drawQop s).draws = s.draws + 1 := rfl

/-! The effects -/

@[simp] theorem advance_wreg (s : State) : (advance s).wreg = none := rfl
@[simp] theorem advance_wmem (s : State) : (advance s).wmem = none := rfl
@[simp] theorem advance_pcNext (s : State) : (advance s).pcNext = nextPc s.pc := rfl
@[simp] theorem advance_halt (s : State) : (advance s).halt = false := rfl
@[simp] theorem commitRegs_none (regs : Vector Word16 256) : commitRegs regs none = regs := rfl
@[simp] theorem commitRegs_some (regs : Vector Word16 256) (i : RegAddr) (v : Word16) :
    commitRegs regs (some (i, v)) = setReg regs i v := rfl
@[simp] theorem commitMem_none (m : Memory) : commitMem m none = m := rfl
@[simp] theorem commitMem_some (m : Memory) (addr : Word16) (v : Byte) :
    commitMem m (some (addr, v)) = m.write addr.toNat v := rfl

end Sys2Proof.Machine
end

