-- ==== Sys2Proof/Laws/Ops.lean ====
section
/-! SUPPORT. What each shared operation can do, said once: registers, the fetch, completing an instruction, the ALU's way
into the state, the port transaction, and the step. Later proofs cite these lemmas instead of unfolding. -/

namespace Sys2Proof.Machine

/-! Registers -/

theorem readReg_eq (s : State) (i : RegAddr) : readReg s i = s.regs[i.toNat]'i.isLt := rfl

/-- A register read depends on the register file alone. -/
theorem readReg_congr {s t : State} (h : t.regs = s.regs) (i : RegAddr) : readReg t i = readReg s i := by
  simp only [readReg, h]

/-- The register file after one write. -/
theorem setReg_get (regs : Vector Word16 256) (i q : RegAddr) (v : Word16) :
    (setReg regs i v)[q.toNat]'q.isLt = if q = i then v else regs[q.toNat]'q.isLt := by
  unfold setReg
  rw [Vector.getElem_set]
  by_cases h : q = i
  · simp [h]
  · have : i.toNat ≠ q.toNat := fun e => h (BitVec.eq_of_toNat_eq e.symm)
    simp [h, this]

@[simp] theorem readReg_writeReg (s : State) (i q : RegAddr) (v : Word16) :
    readReg (writeReg s i v) q = if q = i then v else readReg s q := setReg_get s.regs i q v

/-- The registers after an effect. -/
theorem readReg_commit (s : State) (e : Effect) (q : RegAddr) :
    readReg (commit s e) q =
      match e.wreg with
      | some (i, v) => if q = i then v else readReg s q
      | none => readReg s q := by
  rcases e with ⟨_ | ⟨i, v⟩, wmem, pcNext, halt⟩
  · rfl
  · exact setReg_get s.regs i q v

@[simp] theorem readReg_raiseFault (s : State) (c : FaultCause) (q : RegAddr) :
    readReg (raiseFault s c) q = readReg s q := rfl
@[simp] theorem readReg_sendRequest (s : State) (req : PortRequest) (q : RegAddr) :
    readReg (sendRequest s req) q = readReg s q := rfl
@[simp] theorem readReg_drawQop (s : State) (q : RegAddr) : readReg (drawQop s) q = readReg s q := rfl

/-! Fetch -/

theorem fetch_of_le {s : State} (h : s.pc.toNat ≤ 65532) : fetch s = some (memRead s.mem s.pc.toNat 4) := by
  rw [fetch, if_neg (Nat.not_lt.2 h)]

theorem fetch_of_lt {s : State} (h : 65532 < s.pc.toNat) : fetch s = none := by
  rw [fetch, if_pos h]

@[simp] theorem memRead_four (m : Memory) (addr : Nat) :
    memRead m addr 4 = [m.read addr, m.read (addr + 1), m.read (addr + 2), m.read (addr + 3)] := rfl

/-- The raw word at `pc` (R39, R90). -/
theorem rawAtPc_of_le {s : State} (h : s.pc.toNat ≤ 65532) :
    rawAtPc s = wordOfBytes (s.mem.read s.pc.toNat) (s.mem.read (s.pc.toNat + 1)) (s.mem.read (s.pc.toNat + 2))
      (s.mem.read (s.pc.toNat + 3)) := by
  rw [rawAtPc, fetch_of_le h]; rfl

/-! Operations that complete or raise -/

theorem complete_next (s : State) (e : Effect) : complete s e = .next (commit s e) := rfl

theorem completeWrite_next (s : State) (r : RegAddr) (v : Word16) :
    completeWrite s r v = .next (commit s ⟨some (r, v), none, nextPc s.pc, false⟩) := rfl

theorem raise_next (s : State) (c : FaultCause) : raise s c = .next (raiseFault s c) := rfl

/-- Everything `finishAlu` can do: write the result and advance, or take the fault. -/
theorem finishAlu_next (s : State) (r : RegAddr) (res : AluResult) :
    (∃ v, res = .ok v ∧ finishAlu s r res = .next (commit s ⟨some (r, v), none, nextPc s.pc, false⟩)) ∨
      (∃ c, res = .error c ∧ finishAlu s r res = .next (raiseFault s c)) := by
  cases res with
  | ok v => exact .inl ⟨v, rfl, rfl⟩
  | error c => exact .inr ⟨c, rfl, rfl⟩

/-- Everything a port transaction can do. -/
theorem transact_next (s : State) (req : PortRequest) (onOk : State → Word16 → State) :
    (∃ data, portResponse s req = .ok data ∧ transact s req onOk = .next (onOk (sendRequest s req) data)) ∨
      (portResponse s req = .fail ∧
        transact s req onOk = .next (raiseFault (sendRequest s req) .portFault)) := by
  unfold transact
  cases h : portResponse s req with
  | ok data => exact .inl ⟨data, rfl, rfl⟩
  | fail => exact .inr ⟨rfl, rfl⟩

/-! The step -/

theorem step_halted {s : State} (h : s.run = .halted) : step s = .next s := by
  unfold step; rw [h]

theorem step_outOfBounds {s : State} (h : s.run = .running) (hp : 65532 < s.pc.toNat) :
    step s = .next (raiseFault s .outOfBounds) := by
  unfold step; rw [h, fetch_of_lt hp]; rfl

/-- Everything the step of a Running block can do when it can fetch. -/
theorem step_running {s : State} (h : s.run = .running) (hp : s.pc.toNat ≤ 65532) :
    step s =
      match decode (memRead s.mem s.pc.toNat 4) with
      | .ok i => exec i s
      | .error _ => .next (raiseFault s .decodeError) := by
  unfold step
  rw [h, fetch_of_le hp]
  simp only []
  cases decode (memRead s.mem s.pc.toNat 4) <;> rfl

end Sys2Proof.Machine
end

