-- ==== Sys2Proof/Laws/Exec.lean ====
section
/-! SUPPORT. Each instruction's meaning in terms of the shared operations, one equation per constructor, so that no proof
unfolds `exec`; and what the ALU's way into the state and the port transaction answer in each case. -/

namespace Sys2Proof.Machine

/-! What the shared operations answer -/

@[simp] theorem finishAlu_ok (s : State) (r : RegAddr) (v : Word16) :
    finishAlu s r (.ok v) = .next (commit s ⟨some (r, v), none, nextPc s.pc, false⟩) := rfl
@[simp] theorem finishAlu_error (s : State) (r : RegAddr) (c : FaultCause) :
    finishAlu s r (.error c) = .next (raiseFault s c) := rfl

/-- `DIV` on prepared operands, divisor not 0. -/
theorem aluDiv_of_ne {A B : Word16} (h : B ≠ 0#16) : aluDiv A B = .ok (A.udiv B) := if_neg h
/-- `DIV` on prepared operands, divisor 0. -/
theorem aluDiv_of_eq {A B : Word16} (h : B = 0#16) : aluDiv A B = .error .divideByZero := if_pos h
/-- `MOD` on prepared operands, divisor not 0. -/
theorem aluMod_of_ne {A B : Word16} (h : B ≠ 0#16) : aluMod A B = .ok (A.umod B) := if_neg h
/-- `MOD` on prepared operands, divisor 0. -/
theorem aluMod_of_eq {A B : Word16} (h : B = 0#16) : aluMod A B = .error .divideByZero := if_pos h

/-- A transaction answered `Ok(data)`. -/
theorem transact_ok {s : State} {req : PortRequest} {data : Word16} (h : portResponse s req = .ok data)
    (onOk : State → Word16 → State) : transact s req onOk = .next (onOk (sendRequest s req) data) := by
  unfold transact; rw [h]

/-- A transaction answered `Fail`. -/
theorem transact_fail {s : State} {req : PortRequest} (h : portResponse s req = .fail)
    (onOk : State → Word16 → State) : transact s req onOk = .next (raiseFault (sendRequest s req) .portFault) := by
  unfold transact; rw [h]

/-- The end of `QDC`, `CDC` and `REA` on success. -/
theorem storeData_eq (r : RegAddr) (s : State) (data : Word16) :
    storeData r s data = commit s ⟨some (r, data), none, nextPc s.pc, false⟩ := rfl

/-! The meanings -/

theorem exec_nop (s : State) :
    exec .nop s = complete s (advance s) := rfl
theorem exec_jmp (r : RegAddr) (s : State) :
    exec (.jmp r) s = complete s { advance s with pcNext := readReg s r } := rfl
theorem exec_bra (fa : Bool) (r a : RegAddr) (s : State) :
    exec (.bra fa r a) s = complete s
      { advance s with pcNext := if opnd (readReg s a) fa ≠ 0#16 then readReg s r else nextPc s.pc } := rfl
theorem exec_hlt (s : State) :
    exec .hlt s = complete s { advance s with halt := true } := rfl
theorem exec_equ (fa fb fc : Bool) (r a b : RegAddr) (s : State) :
    exec (.equ fa fb fc r a b) s = finishAlu s r (aluEqu (opnd (readReg s a) fa) (opnd (readReg s b) fa)) := rfl
theorem exec_neq (fa fb fc : Bool) (r a b : RegAddr) (s : State) :
    exec (.neq fa fb fc r a b) s = finishAlu s r (aluNeq (opnd (readReg s a) fa) (opnd (readReg s b) fa)) := rfl
theorem exec_gtn (fa fb fc : Bool) (r a b : RegAddr) (s : State) :
    exec (.gtn fa fb fc r a b) s = finishAlu s r (aluGtn (opnd (readReg s a) fa) (opnd (readReg s b) fa)) := rfl
theorem exec_ltn (fa fb fc : Bool) (r a b : RegAddr) (s : State) :
    exec (.ltn fa fb fc r a b) s = finishAlu s r (aluLtn (opnd (readReg s a) fa) (opnd (readReg s b) fa)) := rfl
theorem exec_add (fa fb fc : Bool) (r a b : RegAddr) (s : State) :
    exec (.add fa fb fc r a b) s = finishAlu s r (aluAdd (opnd (readReg s a) fa) (opnd (readReg s b) fa)) := rfl
theorem exec_sub (fa fb fc : Bool) (r a b : RegAddr) (s : State) :
    exec (.sub fa fb fc r a b) s = finishAlu s r (aluSub (opnd (readReg s a) fa) (opnd (readReg s b) fa)) := rfl
theorem exec_mlt (fa fb fc : Bool) (r a b : RegAddr) (s : State) :
    exec (.mlt fa fb fc r a b) s = finishAlu s r (aluMlt (opnd (readReg s a) fa) (opnd (readReg s b) fa)) := rfl
theorem exec_div (fa fb fc : Bool) (r a b : RegAddr) (s : State) :
    exec (.div fa fb fc r a b) s = finishAlu s r (aluDiv (opnd (readReg s a) fa) (opnd (readReg s b) fa)) := rfl
theorem exec_mod (fa fb fc : Bool) (r a b : RegAddr) (s : State) :
    exec (.mod fa fb fc r a b) s = finishAlu s r (aluMod (opnd (readReg s a) fa) (opnd (readReg s b) fa)) := rfl
theorem exec_inc (fa fb : Bool) (r a : RegAddr) (s : State) :
    exec (.inc fa fb r a) s = finishAlu s r (aluInc (opnd (readReg s a) fa)) := rfl
theorem exec_dec (fa fb : Bool) (r a : RegAddr) (s : State) :
    exec (.dec fa fb r a) s = finishAlu s r (aluDec (opnd (readReg s a) fa)) := rfl
theorem exec_qop (fa fb fc : Bool) (r : RegAddr) (s : State) :
    exec (.qop fa fb fc r) s = completeWrite (drawQop s) r (qopValue s fa fb fc) := rfl
theorem exec_eor (fa fb fc : Bool) (r a b : RegAddr) (s : State) :
    exec (.eor fa fb fc r a b) s = finishAlu s r (aluEor (opnd (readReg s a) fa) (opnd (readReg s b) fa)) := rfl
theorem exec_and (fa fb fc : Bool) (r a b : RegAddr) (s : State) :
    exec (.and fa fb fc r a b) s = finishAlu s r (aluAnd (opnd (readReg s a) fa) (opnd (readReg s b) fa)) := rfl
theorem exec_xor (fa fb fc : Bool) (r a b : RegAddr) (s : State) :
    exec (.xor fa fb fc r a b) s = finishAlu s r (aluXor (opnd (readReg s a) fa) (opnd (readReg s b) fa)) := rfl
theorem exec_not (fa fb : Bool) (r a : RegAddr) (s : State) :
    exec (.not fa fb r a) s = finishAlu s r (aluNot (opnd (readReg s a) fa)) := rfl
theorem exec_lsh (fa fb fc : Bool) (r a b : RegAddr) (s : State) :
    exec (.lsh fa fb fc r a b) s = finishAlu s r (aluLsh (opnd (readReg s a) fa) (opnd (readReg s b) fa)) := rfl
theorem exec_rsh (fa fb fc : Bool) (r a b : RegAddr) (s : State) :
    exec (.rsh fa fb fc r a b) s = finishAlu s r (aluRsh (opnd (readReg s a) fa) (opnd (readReg s b) fa)) := rfl
theorem exec_rot (fa fb : Bool) (r a : RegAddr) (s : State) :
    exec (.rot fa fb r a) s = finishAlu s r (aluRot (opnd (readReg s a) fa)) := rfl
theorem exec_cas (fa fb fc : Bool) (r a b : RegAddr) (s : State) :
    exec (.cas fa fb fc r a b) s = finishAlu s r (aluCas fc (opnd (readReg s a) fa) (opnd (readReg s b) fa)) := rfl
theorem exec_set (fa : Bool) (r : RegAddr) (l : Word16) (s : State) :
    exec (.set fa r l) s = completeWrite s r l := rfl
theorem exec_cop (fa fb : Bool) (r a : RegAddr) (s : State) :
    exec (.cop fa fb r a) s = completeWrite s r (readReg s a) := rfl
theorem exec_lod (fa fb : Bool) (r a : RegAddr) (s : State) :
    exec (.lod fa fb r a) s = completeWrite s r (zext16 (s.mem.read (readReg s a).toNat)) := rfl
theorem exec_sav (fa fb : Bool) (r a : RegAddr) (s : State) :
    exec (.sav fa fb r a) s = complete s { advance s with wmem := some (readReg s a, lowByte (readReg s r)) } := rfl
theorem exec_qdc (fa fb fc : Bool) (r a b : RegAddr) (s : State) :
    exec (.qdc fa fb fc r a b) s = transact s ⟨.query, readReg s a, readReg s b, ⟨fa, fb, fc⟩⟩ (storeData r) := rfl
theorem exec_cdc (fa fb fc : Bool) (r a b : RegAddr) (s : State) :
    exec (.cdc fa fb fc r a b) s = transact s ⟨.configure, readReg s a, readReg s b, ⟨fa, fb, fc⟩⟩ (storeData r) := rfl
theorem exec_rea (r a : RegAddr) (s : State) :
    exec (.rea r a) s = transact s ⟨.read, readReg s a, 0#16, ⟨false, false, false⟩⟩ (storeData r) := rfl
theorem exec_wri (r a : RegAddr) (s : State) :
    exec (.wri r a) s = transact s ⟨.write, readReg s a, readReg s r, ⟨false, false, false⟩⟩ (fun t _ => commit t (advance t)) := rfl

end Sys2Proof.Machine
end

