-- ==== Sys2Proof/Laws/Interface.lean ====
section
/-! SUPPORT. The small lemmas of the boundary: what each field of a request shown to the port holds, and that its code tells
the four operations apart (spec/45_status_channel.md R270). -/

namespace Sys2Proof.Machine

@[simp] theorem requestOutputs_op (req : PortRequest) : (requestOutputs req).op = req.op.code := rfl
@[simp] theorem requestOutputs_id (req : PortRequest) : (requestOutputs req).id = req.id := rfl
@[simp] theorem requestOutputs_value (req : PortRequest) : (requestOutputs req).value = req.value := rfl
@[simp] theorem requestOutputs_flags (req : PortRequest) : (requestOutputs req).flags = req.flags := rfl

/-- The codes of R270 tell the four operations apart. -/
theorem portOp_code_injective {op op' : PortOp} (h : op.code = op'.code) : op = op' := by
  revert h; cases op <;> cases op' <;> decide

/-- What the port sees determines the request. -/
theorem requestOutputs_injective {req req' : PortRequest} (h : requestOutputs req = requestOutputs req') :
    req = req' := by
  cases req; cases req'
  simp only [requestOutputs, RequestOutputs.mk.injEq] at h
  rw [portOp_code_injective h.1, h.2.1, h.2.2.1, h.2.2.2]

end Sys2Proof.Machine
end

