-- ==== Sys2Proof/Laws/PerInstr.lean ====
section
/-! SUPPORT. The per-instruction family `Encoding`: every instruction encodes to four bytes whose first holds its opcode's
number in its top five bits (spec/30_encoding.md R90, R91), and every instruction is well-formed. -/

namespace Sys2Proof.Laws.Encoding

def Statement (i : Instr) : Prop :=
  i.wellFormed = true ∧ ∃ raw0 raw1 raw2 raw3,
    encode i = [raw0, raw1, raw2, raw3] ∧ opcodeField raw0 = (opcodeOf i).code

/-- The top five bits of byte 0 are the opcode's number. -/
theorem opcodeField_encodeByte0 (op : Opcode) (fa fb fc : Bool) :
    opcodeField (encodeByte0 op fa fb fc) = op.code := by
  cases op <;> cases fa <;> cases fb <;> cases fc <;> rfl

/-- Every record encodes to four bytes, the first naming its opcode. -/
theorem statement_of_wellFormed {i : Instr} (h : i.wellFormed = true) : Statement i := by
  refine ⟨h, ?_⟩
  unfold encode encodeRecord
  simp only []
  split
  · exact ⟨_, _, _, _, rfl, opcodeField_encodeByte0 _ _ _ _⟩
  · exact ⟨_, _, _, _, rfl, opcodeField_encodeByte0 _ _ _ _⟩

theorem nop : Statement (.nop) :=
  statement_of_wellFormed (by simp [Instr.wellFormed, Record.normalized, recordOfInstr, presence, presenceOfShape, shapeOf, flagOk, fieldOk])
theorem jmp (r : RegAddr) : Statement (.jmp r) :=
  statement_of_wellFormed (by simp [Instr.wellFormed, Record.normalized, recordOfInstr, presence, presenceOfShape, shapeOf, flagOk, fieldOk])
theorem bra (aFlag : Bool) (r a : RegAddr) : Statement (.bra aFlag r a) :=
  statement_of_wellFormed (by simp [Instr.wellFormed, Record.normalized, recordOfInstr, presence, presenceOfShape, shapeOf, flagOk, fieldOk])
theorem hlt : Statement (.hlt) :=
  statement_of_wellFormed (by simp [Instr.wellFormed, Record.normalized, recordOfInstr, presence, presenceOfShape, shapeOf, flagOk, fieldOk])
theorem equ (aFlag bFlag cFlag : Bool) (r a b : RegAddr) : Statement (.equ aFlag bFlag cFlag r a b) :=
  statement_of_wellFormed (by simp [Instr.wellFormed, Record.normalized, recordOfInstr, presence, presenceOfShape, shapeOf, flagOk, fieldOk])
theorem neq (aFlag bFlag cFlag : Bool) (r a b : RegAddr) : Statement (.neq aFlag bFlag cFlag r a b) :=
  statement_of_wellFormed (by simp [Instr.wellFormed, Record.normalized, recordOfInstr, presence, presenceOfShape, shapeOf, flagOk, fieldOk])
theorem gtn (aFlag bFlag cFlag : Bool) (r a b : RegAddr) : Statement (.gtn aFlag bFlag cFlag r a b) :=
  statement_of_wellFormed (by simp [Instr.wellFormed, Record.normalized, recordOfInstr, presence, presenceOfShape, shapeOf, flagOk, fieldOk])
theorem ltn (aFlag bFlag cFlag : Bool) (r a b : RegAddr) : Statement (.ltn aFlag bFlag cFlag r a b) :=
  statement_of_wellFormed (by simp [Instr.wellFormed, Record.normalized, recordOfInstr, presence, presenceOfShape, shapeOf, flagOk, fieldOk])
theorem add (aFlag bFlag cFlag : Bool) (r a b : RegAddr) : Statement (.add aFlag bFlag cFlag r a b) :=
  statement_of_wellFormed (by simp [Instr.wellFormed, Record.normalized, recordOfInstr, presence, presenceOfShape, shapeOf, flagOk, fieldOk])
theorem sub (aFlag bFlag cFlag : Bool) (r a b : RegAddr) : Statement (.sub aFlag bFlag cFlag r a b) :=
  statement_of_wellFormed (by simp [Instr.wellFormed, Record.normalized, recordOfInstr, presence, presenceOfShape, shapeOf, flagOk, fieldOk])
theorem mlt (aFlag bFlag cFlag : Bool) (r a b : RegAddr) : Statement (.mlt aFlag bFlag cFlag r a b) :=
  statement_of_wellFormed (by simp [Instr.wellFormed, Record.normalized, recordOfInstr, presence, presenceOfShape, shapeOf, flagOk, fieldOk])
theorem div (aFlag bFlag cFlag : Bool) (r a b : RegAddr) : Statement (.div aFlag bFlag cFlag r a b) :=
  statement_of_wellFormed (by simp [Instr.wellFormed, Record.normalized, recordOfInstr, presence, presenceOfShape, shapeOf, flagOk, fieldOk])
theorem mod (aFlag bFlag cFlag : Bool) (r a b : RegAddr) : Statement (.mod aFlag bFlag cFlag r a b) :=
  statement_of_wellFormed (by simp [Instr.wellFormed, Record.normalized, recordOfInstr, presence, presenceOfShape, shapeOf, flagOk, fieldOk])
theorem inc (aFlag bFlag : Bool) (r a : RegAddr) : Statement (.inc aFlag bFlag r a) :=
  statement_of_wellFormed (by simp [Instr.wellFormed, Record.normalized, recordOfInstr, presence, presenceOfShape, shapeOf, flagOk, fieldOk])
theorem dec (aFlag bFlag : Bool) (r a : RegAddr) : Statement (.dec aFlag bFlag r a) :=
  statement_of_wellFormed (by simp [Instr.wellFormed, Record.normalized, recordOfInstr, presence, presenceOfShape, shapeOf, flagOk, fieldOk])
theorem qop (aFlag bFlag cFlag : Bool) (r : RegAddr) : Statement (.qop aFlag bFlag cFlag r) :=
  statement_of_wellFormed (by simp [Instr.wellFormed, Record.normalized, recordOfInstr, presence, presenceOfShape, shapeOf, flagOk, fieldOk])
theorem eor (aFlag bFlag cFlag : Bool) (r a b : RegAddr) : Statement (.eor aFlag bFlag cFlag r a b) :=
  statement_of_wellFormed (by simp [Instr.wellFormed, Record.normalized, recordOfInstr, presence, presenceOfShape, shapeOf, flagOk, fieldOk])
theorem and (aFlag bFlag cFlag : Bool) (r a b : RegAddr) : Statement (.and aFlag bFlag cFlag r a b) :=
  statement_of_wellFormed (by simp [Instr.wellFormed, Record.normalized, recordOfInstr, presence, presenceOfShape, shapeOf, flagOk, fieldOk])
theorem xor (aFlag bFlag cFlag : Bool) (r a b : RegAddr) : Statement (.xor aFlag bFlag cFlag r a b) :=
  statement_of_wellFormed (by simp [Instr.wellFormed, Record.normalized, recordOfInstr, presence, presenceOfShape, shapeOf, flagOk, fieldOk])
theorem not (aFlag bFlag : Bool) (r a : RegAddr) : Statement (.not aFlag bFlag r a) :=
  statement_of_wellFormed (by simp [Instr.wellFormed, Record.normalized, recordOfInstr, presence, presenceOfShape, shapeOf, flagOk, fieldOk])
theorem lsh (aFlag bFlag cFlag : Bool) (r a b : RegAddr) : Statement (.lsh aFlag bFlag cFlag r a b) :=
  statement_of_wellFormed (by simp [Instr.wellFormed, Record.normalized, recordOfInstr, presence, presenceOfShape, shapeOf, flagOk, fieldOk])
theorem rsh (aFlag bFlag cFlag : Bool) (r a b : RegAddr) : Statement (.rsh aFlag bFlag cFlag r a b) :=
  statement_of_wellFormed (by simp [Instr.wellFormed, Record.normalized, recordOfInstr, presence, presenceOfShape, shapeOf, flagOk, fieldOk])
theorem rot (aFlag bFlag : Bool) (r a : RegAddr) : Statement (.rot aFlag bFlag r a) :=
  statement_of_wellFormed (by simp [Instr.wellFormed, Record.normalized, recordOfInstr, presence, presenceOfShape, shapeOf, flagOk, fieldOk])
theorem cas (aFlag bFlag cFlag : Bool) (r a b : RegAddr) : Statement (.cas aFlag bFlag cFlag r a b) :=
  statement_of_wellFormed (by simp [Instr.wellFormed, Record.normalized, recordOfInstr, presence, presenceOfShape, shapeOf, flagOk, fieldOk])
theorem set (aFlag : Bool) (r : RegAddr) (l : Word16) : Statement (.set aFlag r l) :=
  statement_of_wellFormed (by simp [Instr.wellFormed, Record.normalized, recordOfInstr, presence, presenceOfShape, shapeOf, flagOk, fieldOk])
theorem cop (aFlag bFlag : Bool) (r a : RegAddr) : Statement (.cop aFlag bFlag r a) :=
  statement_of_wellFormed (by simp [Instr.wellFormed, Record.normalized, recordOfInstr, presence, presenceOfShape, shapeOf, flagOk, fieldOk])
theorem lod (aFlag bFlag : Bool) (r a : RegAddr) : Statement (.lod aFlag bFlag r a) :=
  statement_of_wellFormed (by simp [Instr.wellFormed, Record.normalized, recordOfInstr, presence, presenceOfShape, shapeOf, flagOk, fieldOk])
theorem sav (aFlag bFlag : Bool) (r a : RegAddr) : Statement (.sav aFlag bFlag r a) :=
  statement_of_wellFormed (by simp [Instr.wellFormed, Record.normalized, recordOfInstr, presence, presenceOfShape, shapeOf, flagOk, fieldOk])
theorem qdc (aFlag bFlag cFlag : Bool) (r a b : RegAddr) : Statement (.qdc aFlag bFlag cFlag r a b) :=
  statement_of_wellFormed (by simp [Instr.wellFormed, Record.normalized, recordOfInstr, presence, presenceOfShape, shapeOf, flagOk, fieldOk])
theorem cdc (aFlag bFlag cFlag : Bool) (r a b : RegAddr) : Statement (.cdc aFlag bFlag cFlag r a b) :=
  statement_of_wellFormed (by simp [Instr.wellFormed, Record.normalized, recordOfInstr, presence, presenceOfShape, shapeOf, flagOk, fieldOk])
theorem rea (r a : RegAddr) : Statement (.rea r a) :=
  statement_of_wellFormed (by simp [Instr.wellFormed, Record.normalized, recordOfInstr, presence, presenceOfShape, shapeOf, flagOk, fieldOk])
theorem wri (r a : RegAddr) : Statement (.wri r a) :=
  statement_of_wellFormed (by simp [Instr.wellFormed, Record.normalized, recordOfInstr, presence, presenceOfShape, shapeOf, flagOk, fieldOk])

end Sys2Proof.Laws.Encoding
end

