-- ==== Sys2Proof/Machine/Assembler.lean ====
section
/-! DEFINITION. The assembler syntax (spec/30_encoding.md R110 to R112, the spec's own choice D23): one statement of text,
as a list of characters, to an instruction, and an instruction to its text. There are no pseudo-instructions (R112). What
the rules leave open of the text (spaces, letter case, leading zeros) is log entry 9. -/

namespace Sys2Proof.Asm

/-- The mnemonics (R98, R111). -/
def mnemonic : Opcode → String
  | .nop => "NOP" | .jmp => "JMP" | .bra => "BRA" | .hlt => "HLT"
  | .equ => "EQU" | .neq => "NEQ" | .gtn => "GTN" | .ltn => "LTN"
  | .add => "ADD" | .sub => "SUB" | .mlt => "MLT" | .div => "DIV"
  | .mod => "MOD" | .inc => "INC" | .dec => "DEC" | .qop => "QOP"
  | .eor => "EOR" | .and => "AND" | .xor => "XOR" | .not => "NOT"
  | .lsh => "LSH" | .rsh => "RSH" | .rot => "ROT" | .cas => "CAS"
  | .set => "SET" | .cop => "COP" | .lod => "LOD" | .sav => "SAV"
  | .qdc => "QDC" | .cdc => "CDC" | .rea => "REA" | .wri => "WRI"

/-- The opcode of a mnemonic. -/
def opcodeOfMnemonic (name : List Char) : Option Opcode :=
  (List.range 32).findSome? fun n =>
    (opcodeOfNat n).filter fun op => (mnemonic op).toList == name

/-- Split text at every separator. -/
def splitAtChar (sep : Char) : List Char → List (List Char)
  | [] => [[]]
  | c :: cs =>
    match splitAtChar sep cs with
    | [] => [[c]]
    | w :: ws => if c = sep then [] :: w :: ws else (c :: w) :: ws

/-- Text without the spaces at its two ends. -/
def trim (cs : List Char) : List Char :=
  ((cs.dropWhile (· == ' ')).reverse.dropWhile (· == ' ')).reverse

/-- The value of a digit in a base up to 16. -/
def digitValue (base : Nat) (c : Char) : Option Nat :=
  let v :=
    if '0' ≤ c ∧ c ≤ '9' then some (c.toNat - '0'.toNat)
    else if 'a' ≤ c ∧ c ≤ 'f' then some (c.toNat - 'a'.toNat + 10)
    else if 'A' ≤ c ∧ c ≤ 'F' then some (c.toNat - 'A'.toNat + 10)
    else none
  v.filter (· < base)

/-- The value of a non-empty run of digits. -/
def digitsValue (base : Nat) : List Char → Option Nat
  | [] => none
  | cs => cs.foldlM (fun n c => (digitValue base c).map (n * base + ·)) 0

/-- Numbers are decimal, or hexadecimal with a `0x` prefix (R110). -/
def number : List Char → Option Nat
  | '0' :: 'x' :: cs => digitsValue 16 cs
  | cs => digitsValue 10 cs

/-- Registers are written `r0` to `r255` (R110). -/
def register : List Char → Option RegAddr
  | 'r' :: cs => ((digitsValue 10 cs).filter (· < 256)).map (BitVec.ofNat 8)
  | _ => none

/-- The literal of `SET`, 0 to 65535 (R111). -/
def literal16 (cs : List Char) : Option Word16 := ((number cs).filter (· < 65536)).map (BitVec.ofNat 16)

/-- `FLAGS` (R110): a non-empty subset of the letters `A`, `B`, `C`, in that order. -/
def flags : List Char → Option (Bool × Bool × Bool)
  | ['A'] => some (true, false, false)
  | ['B'] => some (false, true, false)
  | ['C'] => some (false, false, true)
  | ['A', 'B'] => some (true, true, false)
  | ['A', 'C'] => some (true, false, true)
  | ['B', 'C'] => some (false, true, true)
  | ['A', 'B', 'C'] => some (true, true, true)
  | _ => none

/-- `MNEMONIC[.FLAGS]` (R110): an absent suffix means all flags false. -/
def mnemonicAndFlags (cs : List Char) : Option (Opcode × Bool × Bool × Bool) :=
  match splitAtChar '.' cs with
  | [m] => (opcodeOfMnemonic m).map (·, false, false, false)
  | [m, f] => (opcodeOfMnemonic m).bind fun op => (flags f).map (op, ·)
  | _ => none

/-- The operands of a shape in field order, `r` first (R111), as `r`, `a`, `b` and `l`. -/
def operands : Shape → List (List Char) → Option (RegAddr × RegAddr × RegAddr × Word16)
  | .Z, [] => some (0#8, 0#8, 0#8, 0#16)
  | .J, [r] | .Q, [r] => (register r).map (·, 0#8, 0#8, 0#16)
  | .BR, [r, a] | .U, [r, a] | .P, [r, a] =>
    (register r).bind fun r => (register a).map (r, ·, 0#8, 0#16)
  | .T, [r, a, b] =>
    (register r).bind fun r => (register a).bind fun a => (register b).map (r, a, ·, 0#16)
  | .L, [r, l] => (register r).bind fun r => (literal16 l).map (r, 0#8, 0#8, ·)
  | _, _ => none

/-- One statement `MNEMONIC[.FLAGS] operands` (R110). A flag letter that the opcode's shape does not have is refused. -/
def assemble (text : List Char) : Option Instr :=
  let text := trim text
  let head := text.takeWhile (· != ' ')
  let tail := trim (text.drop head.length)
  (mnemonicAndFlags head).bind fun (op, fa, fb, fc) =>
    (operands (shapeOf op) (if tail.isEmpty then [] else (splitAtChar ',' tail).map trim)).bind
      fun (r, a, b, l) =>
        let i : Record := ⟨op, fa, fb, fc, r, a, b, l⟩
        if i.normalized then some (instrOfRecord i) else none

/-- The four bytes of a statement, 0 in every don't-care bit (R111). -/
def assembleBytes (text : List Char) : Option (List Byte) := (assemble text).map encode

/-- A register's name `rN` (R110). -/
def registerText (i : RegAddr) : String := "r" ++ toString i.toNat

/-- The flag suffix of a statement (R110). -/
def flagsText (fa fb fc : Bool) : String :=
  let letters := (if fa then "A" else "") ++ (if fb then "B" else "") ++ (if fc then "C" else "")
  if fa || fb || fc then "." ++ letters else ""

/-- The operands' text in field order (R111). -/
def operandTexts (i : Record) : List String :=
  let p := presence i.opcode
  (if p.r then [registerText i.r] else []) ++ (if p.a then [registerText i.a] else []) ++
    (if p.b then [registerText i.b] else []) ++ (if p.l then [toString i.l.toNat] else [])

/-- The statement of an instruction (R110, R111), numbers in decimal. -/
def statementText (i : Instr) : String :=
  let d := recordOfInstr i
  let head := mnemonic d.opcode ++ flagsText d.aFlag d.bFlag d.cFlag
  match operandTexts d with
  | [] => head
  | ops => head ++ " " ++ String.intercalate ", " ops

end Sys2Proof.Asm
end

