-- ==== Sys2Proof/Tests/Slice0.lean ====
section
/-! SUPPORT. Own tests of the model: the ill-formed records each check refuses, every constructor's decoding from a word
written out from spec/30_encoding.md, one step on small states with the results of spec/95_test_vectors.md, and for every
statement with hypotheses a state and operands that meet them. -/

namespace Sys2Proof.Tests

open Sys2Proof.Machine
open Sys2Proof.Safety

/-- The reset state with bytes at `pc`, some registers set, and answers the port will give. -/
def boot (pc : Word16) (raw : List Byte) (regs : List (RegAddr × Word16)) (answers : List PortResponse := []) : State :=
  regs.foldl (fun s p => writeReg s p.1 p.2)
    { State.reset with pc := pc, mem := memWrite [] pc.toNat raw, portAnswers := answers }

/-- The state after one step. -/
def after (s : State) : State :=
  match step s with
  | .next t => t
  | .fault _ => s
  | .refused _ => s

/-- The value of `x[1]` after one step at address 0 with `x[2]` and `x[3]` as given: the layout of sections 4 to 6 of
spec/95_test_vectors.md. -/
def x1After (raw : List Byte) (x2 x3 : Word16) : Word16 := readReg (after (boot 0 raw [(2, x2), (3, x3)])) 1

/-! ## Well-formedness: an ill-formed term for each check -/

theorem test_normalized_accepts : (⟨.add, true, true, true, 1, 2, 3, 0⟩ : Record).normalized = true := by decide
theorem test_aFlag_absent_refused : (⟨.jmp, true, false, false, 1, 0, 0, 0⟩ : Record).normalized = false := by decide
theorem test_bFlag_absent_refused : (⟨.bra, false, true, false, 1, 2, 0, 0⟩ : Record).normalized = false := by decide
theorem test_cFlag_absent_refused : (⟨.inc, false, false, true, 1, 2, 0, 0⟩ : Record).normalized = false := by decide
theorem test_r_absent_refused : (⟨.nop, false, false, false, 1, 0, 0, 0⟩ : Record).normalized = false := by decide
theorem test_a_absent_refused : (⟨.qop, false, false, false, 1, 2, 0, 0⟩ : Record).normalized = false := by decide
theorem test_b_absent_refused : (⟨.sav, false, false, false, 1, 2, 3, 0⟩ : Record).normalized = false := by decide
theorem test_l_absent_refused : (⟨.add, false, false, false, 1, 2, 3, 9⟩ : Record).normalized = false := by decide

/-! ## Decoding: one word per constructor, written from R97 and R98 (rows of section 2 of spec/95_test_vectors.md) -/

theorem test_decode_nop : decode [0x07, 0xFF, 0xFF, 0xFF] = .ok (.nop) := by decide
theorem test_decode_hlt : decode [0x1F, 0xAA, 0xBB, 0xCC] = .ok (.hlt) := by decide
theorem test_decode_jmp : decode [0x0F, 0x05, 0x12, 0x34] = .ok (.jmp 0x05) := by decide
theorem test_decode_bra : decode [0x13, 0x07, 0x03, 0x00] = .ok (.bra false 0x07 0x03) := by decide
theorem test_decode_equ : decode [0x24, 0x01, 0x02, 0x03] = .ok (.equ true false false 1 2 3) := by decide
theorem test_decode_neq : decode [0x2A, 0x01, 0x02, 0x03] = .ok (.neq false true false 1 2 3) := by decide
theorem test_decode_gtn : decode [0x31, 0x01, 0x02, 0x03] = .ok (.gtn false false true 1 2 3) := by decide
theorem test_decode_ltn : decode [0x38, 0x01, 0x02, 0x03] = .ok (.ltn false false false 1 2 3) := by decide
theorem test_decode_add : decode [0x47, 0x01, 0x02, 0x03] = .ok (.add true true true 1 2 3) := by decide
theorem test_decode_sub : decode [0x4C, 0x01, 0x02, 0x03] = .ok (.sub true false false 1 2 3) := by decide
theorem test_decode_mlt : decode [0x50, 0x01, 0x02, 0x03] = .ok (.mlt false false false 1 2 3) := by decide
theorem test_decode_div : decode [0x5C, 0x03, 0x01, 0x02] = .ok (.div true false false 3 1 2) := by decide
theorem test_decode_mod : decode [0x61, 0x01, 0x02, 0x03] = .ok (.mod false false true 1 2 3) := by decide
theorem test_decode_inc : decode [0x6F, 0x01, 0x02, 0x03] = .ok (.inc true true 1 2) := by decide
theorem test_decode_dec : decode [0x70, 0x04, 0x04, 0xFF] = .ok (.dec false false 4 4) := by decide
theorem test_decode_qop : decode [0x7A, 0x06, 0x77, 0x88] = .ok (.qop false true false 6) := by decide
theorem test_decode_eor : decode [0x80, 0xFF, 0x00, 0x80] = .ok (.eor false false false 0xFF 0x00 0x80) := by decide
theorem test_decode_and : decode [0x8C, 0x01, 0x02, 0x03] = .ok (.and true false false 1 2 3) := by decide
theorem test_decode_xor : decode [0x92, 0x01, 0x02, 0x03] = .ok (.xor false true false 1 2 3) := by decide
theorem test_decode_not : decode [0x9B, 0x01, 0x02, 0x00] = .ok (.not false true 1 2) := by decide
theorem test_decode_lsh : decode [0xA0, 0x01, 0x02, 0x03] = .ok (.lsh false false false 1 2 3) := by decide
theorem test_decode_rsh : decode [0xAC, 0x01, 0x02, 0x03] = .ok (.rsh true false false 1 2 3) := by decide
theorem test_decode_rot : decode [0xB5, 0x01, 0x02, 0x00] = .ok (.rot true false 1 2) := by decide
theorem test_decode_cas : decode [0xB9, 0x01, 0x02, 0x03] = .ok (.cas false false true 1 2 3) := by decide
theorem test_decode_set : decode [0xC7, 0x05, 0x10, 0x00] = .ok (.set true 5 0x1000) := by decide
theorem test_decode_cop : decode [0xC8, 0x01, 0x02, 0xFF] = .ok (.cop false false 1 2) := by decide
theorem test_decode_lod : decode [0xD6, 0x01, 0x02, 0x00] = .ok (.lod true true 1 2) := by decide
theorem test_decode_sav : decode [0xD8, 0x04, 0x09, 0x00] = .ok (.sav false false 4 9) := by decide
theorem test_decode_qdc : decode [0xE5, 0x01, 0x02, 0x03] = .ok (.qdc true false true 1 2 3) := by decide
theorem test_decode_cdc : decode [0xEA, 0x01, 0x02, 0x03] = .ok (.cdc false true false 1 2 3) := by decide
theorem test_decode_rea : decode [0xF7, 0x01, 0x02, 0x03] = .ok (.rea 1 2) := by decide
theorem test_decode_wri : decode [0xFF, 0x01, 0x02, 0x03] = .ok (.wri 1 2) := by decide

theorem test_encode_drops_dont_care_bits : (decode [0x17, 0xDB, 0x9F, 0x13]).map encode = .ok [0x14, 0xDB, 0x9F, 0x00] := by
  decide
theorem test_short_bytes_refused : decode [0x40, 0x01, 0x02] = .error (.notFourBytes 3) := by decide
theorem test_table_word_is_big_endian : decodeTableWord 32 0xC4F9D732 = some (.set true 0xF9 0xD732) := by decide

/-! ## The assembler: the examples of R111 -/

theorem test_assemble_bra : Asm.assembleBytes "BRA r7, r3".toList = some [0x10, 0x07, 0x03, 0x00] := by decide
theorem test_assemble_set_hex : Asm.assembleBytes "SET r5, 0x1000".toList = some [0xC0, 0x05, 0x10, 0x00] := by decide
theorem test_assemble_flags : Asm.assembleBytes "QOP.C r6".toList = some [0x79, 0x06, 0x00, 0x00] := by decide
theorem test_assemble_refuses_absent_flag : Asm.assemble "JMP.A r5".toList = none := by decide
theorem test_statement_text : Asm.statementText (.cas true false true 1 2 3) = "CAS.AC r1, r2, r3" := by decide

/-! ## One step (results of sections 3 to 9 of spec/95_test_vectors.md) -/

/-- V2: the default advance wraps at 65532. -/
theorem test_nop_wraps_at_the_top : (after (boot 0xFFFC [0, 0, 0, 0] [])).pc = 0 := by decide
/-- V1: don't-care bytes of `NOP`. -/
theorem test_nop_advances : (after (boot 0x10 [0x00, 0x7F, 0x33, 0x69] [])).pc = 0x14 := by decide
/-- V6. -/
theorem test_hlt_keeps_pc : let t := after (boot 8 [0x18, 0, 0, 0] []); t.run = .halted ∧ t.pc = 8 ∧ t.faultCause = .none := by
  decide
/-- V9: a jump beyond the edge, and the fault of the next step. -/
theorem test_jmp_then_out_of_bounds : let t := after (after (boot 0 [0x08, 5, 0, 0] [(5, 0xFFFE)]));
    t.faultCause = .outOfBounds ∧ t.faultPc = 0xFFFE ∧ t.pc = 0xFFFE ∧ t.faultRaw = 0 := by decide
/-- V12. -/
theorem test_bra_narrow_not_taken : (after (boot 0 [0x14, 7, 3, 0] [(7, 0x40), (3, 0x100)])).pc = 4 := by decide
/-- V14. -/
theorem test_bra_ignores_dont_care_bits : (after (boot 0 [0x13, 7, 3, 0xAA] [(7, 0x40), (3, 1)])).pc = 0x40 := by decide

theorem test_equ_narrow : x1After [0x24, 1, 2, 3] 0x1234 0x5634 = 0xFFFF := by decide
theorem test_equ_differs : x1After [0x20, 1, 2, 3] 0x1234 0x1235 = 0x0000 := by decide
theorem test_neq_narrow : x1After [0x2C, 1, 2, 3] 0x0100 0x0200 = 0x0000 := by decide
theorem test_neq_differs : x1After [0x28, 1, 2, 3] 7 8 = 0xFFFF := by decide
theorem test_gtn_unsigned : x1After [0x30, 1, 2, 3] 0x8000 0x7FFF = 0xFFFF := by decide
theorem test_gtn_equal : x1After [0x30, 1, 2, 3] 5 5 = 0 := by decide
theorem test_ltn_unsigned : x1After [0x38, 1, 2, 3] 0x7FFF 0x8000 = 0xFFFF := by decide
theorem test_ltn_narrow : x1After [0x3C, 1, 2, 3] 0x0001 0xFF00 = 0 := by decide
theorem test_add_wraps : x1After [0x40, 1, 2, 3] 0xFFFF 1 = 0 := by decide
theorem test_add_narrow_uncut : x1After [0x44, 1, 2, 3] 0x12FF 0x3401 = 0x0100 := by decide
theorem test_sub_borrows : x1After [0x48, 1, 2, 3] 5 7 = 0xFFFE := by decide
theorem test_sub_narrow : x1After [0x4C, 1, 2, 3] 0x0100 1 = 0xFFFF := by decide
theorem test_mlt_low_half : x1After [0x50, 1, 2, 3] 0xFFFF 0xFFFF = 1 := by decide
theorem test_mlt_narrow : x1After [0x54, 1, 2, 3] 0x12FF 0x34FF = 0xFE01 := by decide
theorem test_div_unsigned : x1After [0x58, 1, 2, 3] 0x8000 0xFFFF = 0 := by decide
theorem test_div_narrow : x1After [0x5C, 1, 2, 3] 0x1264 0x3407 = 0x000E := by decide
theorem test_mod_remainder : x1After [0x60, 1, 2, 3] 0xFFFF 0x0010 = 0x000F := by decide
theorem test_mod_small : x1After [0x60, 1, 2, 3] 7 0x64 = 7 := by decide
theorem test_inc_narrow : x1After [0x6C, 1, 2, 0] 0x12FF 0 = 0x0100 := by decide
theorem test_inc_wraps : x1After [0x68, 1, 2, 0] 0xFFFF 0 = 0 := by decide
theorem test_dec_wraps : x1After [0x70, 1, 2, 0] 0 0 = 0xFFFF := by decide
theorem test_dec_narrow : x1After [0x74, 1, 2, 0] 0x1200 0 = 0xFFFF := by decide
theorem test_eor_is_inclusive : x1After [0x80, 1, 2, 3] 0x0F0F 0x00FF = 0x0FFF := by decide
theorem test_and_narrow : x1After [0x8C, 1, 2, 3] 0xFFFF 0xFFFF = 0x00FF := by decide
theorem test_xor_narrow : x1After [0x94, 1, 2, 3] 0x1234 0xFFFF = 0x00CB := by decide
theorem test_not_narrow_sets_high_byte : x1After [0x9C, 1, 2, 0] 0x1234 0 = 0xFFCB := by decide
theorem test_lsh_saturates : x1After [0xA0, 1, 2, 3] 1 0x0110 = 0 := by decide
theorem test_lsh_narrow_uncut : x1After [0xA4, 1, 2, 3] 0x00FF 8 = 0xFF00 := by decide
theorem test_rsh_fills_zero : x1After [0xA8, 1, 2, 3] 0x8000 0x000F = 1 := by decide
theorem test_rsh_narrow : x1After [0xAC, 1, 2, 3] 0xABCD 4 = 0x000C := by decide
theorem test_rot_carries_top_bit : x1After [0xB0, 1, 2, 0] 0x8001 0 = 3 := by decide
theorem test_rot_narrow : x1After [0xB4, 1, 2, 0] 0x1280 0 = 0x0100 := by decide
theorem test_cas_fills : x1After [0xB9, 1, 2, 3] 0x8000 1 = 1 := by decide
theorem test_cas_saturates : x1After [0xB9, 1, 2, 3] 0 0x0010 = 0xFFFF := by decide

/-- E5: `DIV` by zero. -/
theorem test_div_by_zero_faults : let t := after (boot 0 [0x58, 1, 2, 3] [(1, 0x7777), (2, 5)]);
    t.run = .halted ∧ t.faultCause = .divideByZero ∧ t.faultRaw = 0x58010203 ∧ readReg t 1 = 0x7777 ∧ t.pc = 0 := by decide
/-- A narrow `MOD` whose divisor has a zero low byte. -/
theorem test_mod_narrow_zero_faults : (after (boot 0 [0x64, 1, 2, 3] [(2, 0x105), (3, 0x300)])).faultCause = .divideByZero := by
  decide
/-- E3. -/
theorem test_set_literal : readReg (after (boot 0 [0xC4, 0xF9, 0xD7, 0x32] [])) 0xF9 = 0xD732 := by decide
/-- M4: `COP.A` is not cut. -/
theorem test_cop_not_cut : readReg (after (boot 0 [0xCC, 1, 2, 0] [(2, 0xBEEF)])) 1 = 0xBEEF := by decide
/-- M7: the old `x[2]` is the address. -/
theorem test_lod_uses_old_address : readReg (after (boot 0 [0xD0, 2, 2, 0, 0x11] [(2, 4)])) 2 = 0x11 := by decide
/-- A register pointing at the program reads the instruction's own byte. -/
theorem test_lod_zero_extends : readReg (after (boot 0 [0xD0, 1, 2, 0] [])) 1 = 0x00D0 := by decide
/-- M9. -/
theorem test_sav_last_byte : (after (boot 0 [0xD8, 4, 9, 0] [(4, 0x12CD), (9, 0xFFFF)])).mem.read 0xFFFF = 0xCD := by decide
/-- M11: the next step runs the byte saved, a `HLT`. -/
theorem test_sav_into_next_instruction : let t := after (after (boot 0x10 [0xD8, 1, 2, 0] [(1, 0x18), (2, 0x14)]));
    t.run = .halted ∧ t.pc = 0x14 := by decide
/-- C7: `QOP` writes the value drawn, here one the environment has lined up. -/
theorem test_qop_writes_the_draw :
    readReg (after { boot 0 [0x7F, 6, 0, 0] [] with qopAnswers := [0x1234] }) 6 = 0x1234 := by decide
/-- C6: values are sent uncut, the flags forwarded. -/
theorem test_qdc_sends_uncut : let t := after (boot 0 [0xE4, 1, 2, 3] [(2, 0x100), (3, 0xFFFF)] [.ok 7]);
    t.portLog = [⟨.query, 0x100, 0xFFFF, ⟨true, false, false⟩⟩] ∧ readReg t 1 = 7 := by decide
/-- C2. -/
theorem test_cdc_configures : let t := after (boot 0 [0xEA, 1, 2, 3] [(1, 5), (2, 1), (3, 3)] [.ok 0]);
    t.portLog = [⟨.configure, 1, 3, ⟨false, true, false⟩⟩] ∧ readReg t 1 = 0 := by decide
/-- C3. -/
theorem test_rea_reads : readReg (after (boot 0 [0xF0, 1, 2, 0] [(2, 0x10)] [.ok 0x1234])) 1 = 0x1234 := by decide
/-- C5: `Fail`. -/
theorem test_rea_fails : let t := after (boot 0x100 [0xF0, 1, 2, 0] [(1, 0x777), (2, 0x10)] [.fail]);
    t.faultCause = .portFault ∧ t.faultPc = 0x100 ∧ t.faultRaw = 0xF0010200 ∧ readReg t 1 = 0x777 ∧ t.pc = 0x100 := by decide
/-- C4: the answer's data is ignored. -/
theorem test_wri_sends : let t := after (boot 0 [0xF8, 1, 2, 0] [(1, 0xFF), (2, 0x10)] [.ok 0x5555]);
    t.portLog = [⟨.write, 0x10, 0xFF, ⟨false, false, false⟩⟩] ∧ readReg t 1 = 0xFF ∧ t.pc = 4 := by decide
/-- S1: Reset after the fault of E5. -/
theorem test_reset_after_fault : let t := applyReset (after (boot 0 [0x58, 1, 2, 3] [(1, 0x7777), (2, 5)]));
    t.run = .running ∧ t.faultCause = .none ∧ t.pc = 0 ∧ readReg t 1 = 0 ∧ t.mem.read 0 = 0x58 := by decide
/-- The status outputs after E5. -/
theorem test_status_outputs :
    statusOutputs (after (boot 0 [0x58, 1, 2, 3] [(2, 5)])) = ⟨1, 2, 0, 0x58010203⟩ := by decide
/-- R270: the codes of `op`. -/
theorem test_port_op_codes : [PortOp.query, .configure, .read, .write].map PortOp.code = [0, 1, 2, 3] := by decide
/-- R280's example: `WRI r1, r2` sends `WRITE(0x0010, 0x00FF)`. -/
theorem test_wri_request : (after (boot 0 [0xF8, 1, 2, 0] [(1, 0xFF), (2, 0x10)] [.ok 0])).portLog.map requestOutputs =
    [⟨3, 0x10, 0xFF, ⟨false, false, false⟩⟩] := by decide
/-- D34: the strict step refuses `ADD.B`, the step runs it. -/
theorem test_strict_refuses : (match stepStrict (boot 0 [0x42, 1, 2, 3] []) with
    | .refused (.strictFlags raw) => raw == 0x42010203 | _ => false) = true := by decide

/-! ## Witnesses: states and operands that meet each statement's hypotheses -/

/-- The step of a concrete state answers a next state. -/
def answersNext (s : State) : Prop := step s = .next (after s)

/-- `ADD r1, r2, r3` at 0. -/
def sAdd : State := boot 0 [0x40, 1, 2, 3] []
/-- `DIV r1, r2, r3` with a divisor of 0, at 65532. -/
def sDiv : State := boot 0xFFFC [0x58, 1, 2, 3] [(2, 5)]
/-- `HLT` at 65532. -/
def sHlt : State := boot 0xFFFC [0x18, 0, 0, 0] []
/-- `JMP r5` to 65533. -/
def sJmp : State := boot 0 [0x08, 5, 0, 0] [(5, 0xFFFD)]
/-- `BRA r7, r3`, taken, to 65533. -/
def sBra : State := boot 0 [0x10, 7, 3, 0] [(7, 0xFFFD), (3, 1)]
/-- `REA r1, r2` answered `Fail`. -/
def sFail : State := boot 0 [0xF0, 1, 2, 0] [] [.fail]
/-- `QDC r1, r2, r3` answered `Ok(128)`. -/
def sOk : State := boot 0 [0xE0, 1, 2, 3] [(2, 1)] [.ok 0x80]
/-- A state that cannot fetch. -/
def sEdge : State := boot 0xFFFD [] []
/-- `SAV r1, r2` at 65528 into the first byte after it. -/
def sSav : State := boot 0xFFF8 [0xD8, 1, 2, 0] [(1, 0x18), (2, 0xFFFC)]
/-- A Halted state. -/
def sHalted : State := after sHlt

theorem about_add : AboutToRun sAdd (.add false false false 1 2 3) := ⟨rfl, by decide, by decide⟩
theorem about_div : AboutToRun sDiv (.div false false false 1 2 3) := ⟨by decide, by decide, by decide⟩
theorem about_hlt : AboutToRun sHlt .hlt := ⟨by decide, by decide, by decide⟩
theorem about_jmp : AboutToRun sJmp (.jmp 5) := ⟨by decide, by decide, by decide⟩
theorem about_bra : AboutToRun sBra (.bra false 7 3) := ⟨by decide, by decide, by decide⟩
theorem about_fail : AboutToRun sFail (.rea 1 2) := ⟨by decide, by decide, by decide⟩
theorem about_ok : AboutToRun sOk (.qdc false false false 1 2 3) := ⟨by decide, by decide, by decide⟩
theorem about_sav : AboutToRun sSav (.sav false false 1 2) := ⟨by decide, by decide, by decide⟩
theorem next_add : answersNext sAdd := rfl
theorem next_div : answersNext sDiv := rfl
theorem next_hlt : answersNext sHlt := rfl
theorem next_jmp : answersNext sJmp := rfl
theorem next_bra : answersNext sBra := rfl
theorem next_fail : answersNext sFail := rfl
theorem next_ok : answersNext sOk := rfl
theorem next_edge : answersNext sEdge := rfl
theorem next_sav : answersNext sSav := rfl
theorem next_halted : answersNext sHalted := rfl

theorem witness_DecodeEncodeRoundTrip : (⟨.set, true, false, false, 5, 0, 0, 0xFFFF⟩ : Record).normalized = true := by decide
/-- Each clause's range at both ends: `raw[0]` from `8n` to `8n + 7`. -/
theorem witness_DecodeFollowsTheOpcodeMap : ∀ n, n < 32 →
    (BitVec.ofNat 8 (8 * n)).toNat / 8 = n ∧ (BitVec.ofNat 8 (8 * n + 7)).toNat / 8 = n := by decide
theorem witness_EveryWordDecodes : answersNext sAdd ∧ sAdd.faultCause ≠ .decodeError := ⟨next_add, by decide⟩
theorem witness_DontCareBitsDoNotChangeDecode : decode (bytesOfWord 0x007F3369) = .ok .nop ∧
    (0x007F3369 : Word32) &&& careMask (shapeOf (opcodeOf .nop)) = 0x07000000 &&& careMask (shapeOf (opcodeOf .nop)) := by
  decide
theorem witness_PlacedTableWordRuns : sAdd.mem.wf = true ∧ sEdge.mem.wf = true := by decide
theorem witness_StrictStep_refuses : (boot 0xFFFC [0x42, 1, 2, 3] []).run = .running ∧
    (boot 0xFFFC [0x42, 1, 2, 3] []).pc.toNat ≤ 65532 ∧ strictFlagsOk (wordAtPc (boot 0xFFFC [0x42, 1, 2, 3] [])) = false := by
  decide
theorem witness_StrictStep_runs : sHalted.run = .halted ∧ 65532 < sEdge.pc.toNat ∧ strictFlagsOk (wordAtPc sAdd) = true := by
  decide
theorem witness_StrictStep_word : decode (bytesOfWord 0x44010203) = .ok (.add true false false 1 2 3) ∧
    strictFlagsOk 0x44010203 = true := by decide
theorem witness_StrictStep_marked : decode (bytesOfWord 0xC4010203) = .ok (.set true 1 0x0203) ∧
    strictFlagsOk 0xC4010203 = false ∧ ¬ ignoredFlagsClear (.set true 1 0x0203) :=
  ⟨by decide, by decide, Bool.noConfusion⟩
theorem witness_StepRunsDecodedInstruction : AboutToRun sAdd (.add false false false 1 2 3) := about_add
theorem witness_Fetch_succeeds : (boot 0xFFFC [] []).run = .running ∧ (boot 0xFFFC [] []).pc.toNat ≤ 65532 := by decide
theorem witness_HaltedBlockIgnoresSteps : sHalted.run = .halted := by decide
theorem witness_StepCommits_advances : AboutToRun sAdd (.add false false false 1 2 3) ∧ sAdd.faultCause = .none ∧
    answersNext sAdd ∧ (after sAdd).faultCause = .none := ⟨about_add, by decide, next_add, by decide⟩
theorem witness_StepCommits_stays : AboutToRun sDiv (.div false false false 1 2 3) ∧ sDiv.faultCause = .none ∧
    answersNext sDiv ∧ (after sDiv).faultCause ≠ .none := ⟨about_div, by decide, next_div, by decide⟩
theorem witness_StepCommits_hlt : AboutToRun sHlt .hlt ∧ sHlt.faultCause = .none ∧ answersNext sHlt :=
  ⟨about_hlt, by decide, next_hlt⟩
theorem witness_OutOfBounds_first : sEdge.run = .running ∧ sEdge.pc.toNat = 65533 := by decide
theorem witness_OutOfBounds_last : (boot 0xFFFF [] []).run = .running ∧ 65532 < (boot 0xFFFF [] []).pc.toNat := by decide
theorem witness_OutOfBounds_jump : AboutToRun sJmp (.jmp 5) ∧ sJmp.faultCause = .none ∧ answersNext sJmp ∧
    65532 < (after sJmp).pc.toNat := ⟨about_jmp, by decide, next_jmp, by decide⟩
/-- The default advance from 65529 and from 65531. -/
theorem witness_OutOfBounds_advance : AboutToRun (boot 0xFFF9 [] []) .nop ∧ AboutToRun (boot 0xFFFB [] []) .nop ∧
    (after (boot 0xFFF9 [] [])).pc = 0xFFFD ∧ (after (boot 0xFFFB [] [])).pc = 0xFFFF :=
  ⟨⟨rfl, by decide, by decide⟩, ⟨rfl, by decide, by decide⟩, by decide, by decide⟩
theorem witness_StepAnswers_divideByZero : AboutToRun sDiv (.div false false false 1 2 3) ∧ sDiv.faultCause = .none ∧
    answersNext sDiv ∧ dividesByZero sDiv (.div false false false 1 2 3) := ⟨about_div, by decide, next_div, by
    show opnd (readReg sDiv 3) false = 0#16
    decide⟩
theorem witness_StepAnswers_portFault : AboutToRun sFail (.rea 1 2) ∧ sFail.faultCause = .none ∧ answersNext sFail ∧
    portFails sFail (.rea 1 2) := ⟨about_fail, by decide, next_fail, rfl⟩
theorem witness_StepAnswers_continue : AboutToRun sAdd (.add false false false 1 2 3) ∧ sAdd.faultCause = .none ∧
    answersNext sAdd ∧ ¬ dividesByZero sAdd (.add false false false 1 2 3) ∧ ¬ portFails sAdd (.add false false false 1 2 3) :=
  ⟨about_add, by decide, next_add, id, id⟩
theorem witness_StepAnswers_outOfBounds : sEdge.run = .running ∧ 65532 < sEdge.pc.toNat ∧ answersNext sEdge :=
  ⟨by decide, by decide, next_edge⟩
theorem witness_StepAnswers_halted : sHalted.run = .halted ∧ answersNext sHalted := ⟨by decide, next_halted⟩
theorem witness_OnlyReset_hlt : ∃ t, exec .hlt sHlt = .next t := ⟨_, rfl⟩
theorem witness_OnlyReset_fault : answersNext sDiv ∧ (after sDiv).faultCause ≠ sDiv.faultCause := ⟨next_div, by decide⟩
theorem witness_OnlyReset_exec : (∃ t, exec .nop sHalted = .next t) ∧ sHalted.run = .halted := ⟨⟨_, rfl⟩, by decide⟩
theorem witness_create : ∃ s, create (List.replicate 65536 0x18) = some s := ⟨_, if_pos List.length_replicate⟩
theorem witness_create_refuses : ([] : List Byte).length ≠ 65536 := by decide
theorem witness_FaultingStep : sDiv.run = .running ∧ sDiv.faultCause = .none ∧ answersNext sDiv ∧
    (after sDiv).faultCause ≠ .none := ⟨by decide, by decide, next_div, by decide⟩
theorem witness_FaultingStep_sent : sFail.run = .running ∧ sFail.faultCause = .none ∧ answersNext sFail ∧
    (after sFail).faultCause ≠ .none := ⟨by decide, by decide, next_fail, by decide⟩
theorem witness_FaultEntry : AboutToRun sDiv (.div false false false 1 2 3) ∧ (after sDiv).faultCause ≠ .none :=
  ⟨about_div, by decide⟩
theorem witness_DivideByZeroExactly : sDiv.run = .running ∧ sDiv.faultCause = .none ∧ answersNext sDiv ∧
    (after sDiv).faultCause = .divideByZero := ⟨by decide, by decide, next_div, by decide⟩
theorem witness_PortFaultExactly : sFail.run = .running ∧ sFail.faultCause = .none ∧ answersNext sFail ∧
    (after sFail).faultCause = .portFault := ⟨by decide, by decide, next_fail, by decide⟩
theorem witness_PortFault_no_request : ∀ i, AboutToRun sAdd i → requestOf sAdd i = none := by
  intro i h
  have := about_add.2.2.symm.trans h.2.2
  injection this with this
  subst this; rfl
theorem witness_RequestsReachThePort : AboutToRun sOk (.qdc false false false 1 2 3) ∧ answersNext sOk := ⟨about_ok, next_ok⟩
/-- The invariant's hypotheses: a state about to divide by zero meets it, and its step answers. -/
theorem witness_StepKeepsInv : Inv sDiv ∧ answersNext sDiv := by
  refine ⟨⟨by decide, fun h => absurd ?_ h, fun _ => ⟨by decide, by decide⟩, by decide, fun h => absurd h (by decide),
    fun h => absurd h (by decide), fun h => absurd h (by decide)⟩, next_div⟩
  decide
theorem witness_BoundaryOperationsKeepInv : (∀ s, some sDiv = some s → Inv s) ∧ ∃ t, applyOp (some sDiv) .reset = some t :=
  ⟨fun _ h => Option.some.inj h ▸ witness_StepKeepsInv.1, _, rfl⟩
theorem witness_OnlyTheDestination : (∃ t, exec (.div false false false 1 2 3) sDiv = .next t ∧ t.faultCause ≠ .none) ∧
    destination (.div false false false 1 2 3) ≠ some 2 ∧ sDiv.faultCause = .none :=
  ⟨⟨after sDiv, rfl, by decide⟩, by decide, by decide⟩
theorem witness_OnlyTheSources : (1 : RegAddr) ∉ sources (.add false false false 1 2 3) ∧
    (0 : RegAddr) ∉ sources (.add false false false 1 2 3) := by decide
theorem witness_OnlySav : (∃ t, exec .nop sAdd = .next t) ∧ opcodeOf .nop ≠ .sav := ⟨⟨_, rfl⟩, by decide⟩
theorem witness_Unobservable : (after sHlt).regs = sHlt.regs ∧ (after sHlt).pc = sHlt.pc ∧ (after sHlt).mem = sHlt.mem ∧
    sameEnv sHlt (after sHlt) ∧ (after sHlt).run ≠ sHlt.run := ⟨rfl, rfl, rfl, ⟨rfl, rfl, rfl, rfl⟩, by decide⟩
theorem witness_Jmp : (0x08 : Byte).toNat / 8 = 1 ∧ (0x0F : Byte).toNat / 8 = 1 ∧ sJmp.run = .running ∧
    65532 < (readReg sJmp 5).toNat := by decide
theorem witness_Jmp_next : exec (.jmp 5) sJmp = .next (after sJmp) ∧ answersNext (after sJmp) := ⟨rfl, rfl⟩
theorem witness_Bra : (0x10 : Byte).toNat / 8 = 2 ∧ (0x17 : Byte).toNat / 8 = 2 ∧ sBra.run = .running ∧
    opnd (readReg sBra 3) false ≠ 0#16 ∧ 65532 < (readReg sBra 7).toNat ∧ opnd (readReg sBra 4) false = 0#16 := by decide
theorem witness_Bra_next : exec (.bra false 7 3) sBra = .next (after sBra) ∧ answersNext (after sBra) := ⟨rfl, rfl⟩
theorem witness_Division : (opnd (readReg sDiv 2) false).toNat ≠ 0 := by decide
theorem witness_DivisionByZero : sDiv.pc.toNat ≤ 65532 ∧ opnd (readReg sDiv 3) false = 0#16 := by decide
theorem witness_MemoryPrimitives : sSav.mem.wf = true ∧ 65532 + [0x12, 0x34, 0x56, (0x78 : Byte)].length ≤ 65536 := by decide
theorem witness_Moves : opcodeOf (.sav false false 1 2) ∈ [Opcode.set, .cop, .lod, .sav] := by decide
theorem witness_Moves_fault : sEdge.run = .running ∧ sEdge.faultCause = .none ∧ answersNext sEdge ∧
    (after sEdge).faultCause ≠ .none ∧ ¬ sEdge.pc.toNat ≤ 65532 := ⟨by decide, by decide, next_edge, by decide, by decide⟩
theorem witness_Sav : sSav.mem.wf = true := by decide
theorem witness_LoadAfterSave : sSav.mem.wf = true ∧ readReg sSav 2 = readReg sSav 2 ∧
    exec (.sav false false 1 2) sSav = .next (after sSav) := ⟨by decide, rfl, rfl⟩
/-- The four bytes after the `SAV` at 65528, the saved byte first, are a `HLT`. -/
theorem witness_SavedByteIsFetchedNext : sSav.mem.wf = true ∧ AboutToRun sSav (.sav false false 1 2) ∧ answersNext sSav ∧
    (sSav.pc.toNat + 4) % 65536 = 65532 ∧ sSav.pc.toNat + 4 = (readReg sSav 2).toNat ∧
    decode [lowByte (readReg sSav 1), sSav.mem.read 65533, sSav.mem.read 65534, sSav.mem.read 65535] = .ok .hlt :=
  ⟨by decide, about_sav, next_sav, by decide, by decide, by decide⟩
/-- A `SAV` at 65532, whose next fetch is at 0, and one at 65529, whose next fetch is out of bounds. -/
theorem witness_SavedByte_wraps : let s := boot 0xFFFC [0xD8, 1, 2, 0] [(1, 0x18), (2, 0)]
    s.mem.wf = true ∧ AboutToRun s (.sav false false 1 2) ∧ answersNext s ∧ (s.pc.toNat + 4) % 65536 = 0 :=
  ⟨by decide, ⟨rfl, by decide, by decide⟩, rfl, by decide⟩
theorem witness_SavedByte_edge : let s := boot 0xFFF9 [0xD8, 1, 2, 0] []
    s.mem.wf = true ∧ AboutToRun s (.sav false false 1 2) ∧ answersNext s ∧ (s.pc.toNat + 4) % 65536 = 65533 :=
  ⟨by decide, ⟨rfl, by decide, by decide⟩, rfl, by decide⟩
theorem witness_Qop_lined_up : ({ sAdd with qopAnswers := [0xBEEF] } : State).qopAnswers = 0xBEEF :: [] := rfl
theorem witness_Qop_drawn : sAdd.qopAnswers = [] := rfl
theorem witness_EveryLinedUpAnswer : sFail.portAnswers = .fail :: [] ∧ sOk.portAnswers = .ok 0x80 :: [] := ⟨rfl, rfl⟩
theorem witness_StatusOutputs : sAdd.faultCause = .none ∧ (after sDiv).faultCause = .divideByZero ∧
    (after sEdge).faultCause = .outOfBounds ∧ (after sFail).faultCause = .portFault ∧
    ({ sAdd with faultCause := .decodeError } : State).faultCause = .decodeError := by decide
theorem witness_ChannelAnswer : portResponse sOk ⟨.query, 1, 0, ⟨false, false, false⟩⟩ = .ok 0x80 ∧
    portResponse sOk ⟨.configure, 1, 0, ⟨false, false, false⟩⟩ = .ok 0x80 ∧
    portResponse sOk ⟨.read, 1, 0, ⟨false, false, false⟩⟩ = .ok 0x80 := by decide
theorem witness_Wri : portResponse sOk ⟨.write, readReg sOk 2, readReg sOk 1, ⟨false, false, false⟩⟩ = .ok 0x80 := by decide
theorem witness_FailedRequest : sFail.pc.toNat ≤ 65532 ∧
    (∀ i ∈ [Instr.qdc false false false 1 2 3, .cdc false false false 1 2 3, .rea 1 2, .wri 1 2],
      ∃ req, requestOf sFail i = some req ∧ portResponse sFail req = .fail) := by
  refine ⟨by decide, ?_⟩
  intro i hi
  fin_cases hi <;> exact ⟨_, rfl, rfl⟩

end Sys2Proof.Tests
end

section
/-! The register file as a program sees it (R31). -/

namespace Sys2Proof.Proofs.State

open Sys2Proof.Machine

/-- The read-after-write half of R31, for every register: no address, `x[0]` included, is hardwired. -/
theorem readReg_writeReg_same (s : State) (i : RegAddr) (v : Word16) : readReg (writeReg s i v) i = v := by
  rw [readReg_writeReg, if_pos rfl]

/-- Settles O33: `x[0]` is one case of the read-after-write law that holds at every address. -/
theorem everyRegisterStoresWhatIsWritten : Obligations.EveryRegisterStoresWhatIsWritten :=
  ⟨fun s v => readReg_writeReg_same s 0#8 v, readReg_writeReg⟩

end Sys2Proof.Proofs.State
end

section
/-! Instruction fetch from memory (R65): the four bytes at `pc`, what they decode to, and the bound. -/

namespace Sys2Proof.Proofs.Memory

open Sys2Proof.Machine Sys2Proof.Safety

/-! Decoding four bytes -/

theorem decode_of_opcode {raw0 : Byte} {op : Opcode} (h : opcodeOfNat (opcodeField raw0).toNat = some op)
    (raw1 raw2 raw3 : Byte) :
    decode [raw0, raw1, raw2, raw3] = .ok (instrOfRecord (decodeFields op raw0 raw1 raw2 raw3)) := by
  rw [decode, decodeRecord, h]; rfl

/-- R99: the dispatch table answers for every value of the 5-bit opcode field, so no four bytes are refused. -/
theorem decode_four_ok (raw0 raw1 raw2 raw3 : Byte) : ∃ i, decode [raw0, raw1, raw2, raw3] = .ok i := by
  obtain ⟨op, hop, -⟩ := opcodeOfNat_of_lt (opcodeField raw0).isLt
  exact ⟨_, decode_of_opcode hop raw1 raw2 raw3⟩

/-- A Running block that can fetch is about to run some instruction. -/
theorem exists_aboutToRun {s : State} (hrun : s.run = .running) (hpc : s.pc.toNat ≤ 65532) : ∃ i, AboutToRun s i := by
  obtain ⟨i, hi⟩ := decode_four_ok (s.mem.read s.pc.toNat) (s.mem.read (s.pc.toNat + 1)) (s.mem.read (s.pc.toNat + 2))
    (s.mem.read (s.pc.toNat + 3))
  exact ⟨i, hrun, hpc, hi⟩

/-! The fetch and the step -/

theorem fetch_eq_bytesAtPc {s : State} (hpc : s.pc.toNat ≤ 65532) : fetch s = some (bytesAtPc s) := by
  rw [fetch_of_le hpc, memRead_four, bytesAtPc]

theorem step_of_aboutToRun {s : State} {i : Instr} (h : AboutToRun s i) : step s = exec i s := by
  obtain ⟨hrun, hpc, hdec⟩ := h
  have hread : decode (memRead s.mem s.pc.toNat 4) = .ok i := hdec
  rw [step_running hrun hpc, hread]

/-- The answer of a step that takes a fault (R130, R304). -/
theorem stepOutcome_raiseFault {s : State} (hrun : s.run = .running) {c : FaultCause} (hc : c ≠ .none) :
    stepOutcome s (raiseFault s c) = .fault c := by
  simp [stepOutcome, hrun, hc]

/-- Settles O10: up to 65532 the fetch succeeds and decoding is total; above it the step is the entry of `OUT_OF_BOUNDS`. -/
theorem fetchIsBoundsChecked : Obligations.FetchIsBoundsChecked := by
  constructor
  · intro s hrun hpc
    obtain ⟨i, hi⟩ := exists_aboutToRun hrun hpc
    refine ⟨fetch_eq_bytesAtPc hpc, i, ?_, step_of_aboutToRun hi⟩
    obtain ⟨-, -, hdec⟩ := hi
    exact hdec
  · intro s hrun hpc
    exact ⟨fetch_of_lt hpc, _, step_outOfBounds hrun hpc, stepOutcome_raiseFault hrun (by decide)⟩

end Sys2Proof.Proofs.Memory
end

section
/-! Encoding (R90 to R104): what the four bytes hold, decode and encode undo each other, every word follows the opcode map,
and no word is refused. -/

namespace Sys2Proof.Proofs.Encoding

open Sys2Proof.Machine Sys2Proof.Safety

/-! The fields of the bytes, as numbers -/

theorem opcodeField_toNat (raw0 : Byte) : (opcodeField raw0).toNat = raw0.toNat / 8 := by
  have hlt := raw0.isLt
  rw [opcodeField, BitVec.extractLsb'_toNat, Nat.shiftRight_eq_div_pow]
  omega

theorem rawFlagA_eq (raw0 : Byte) : rawFlagA raw0 = decide (raw0.toNat / 4 % 2 = 1) :=
  Nat.testBit_eq_decide_div_mod_eq

theorem rawFlagB_eq (raw0 : Byte) : rawFlagB raw0 = decide (raw0.toNat / 2 % 2 = 1) :=
  Nat.testBit_eq_decide_div_mod_eq

theorem rawFlagC_eq (raw0 : Byte) : rawFlagC raw0 = decide (raw0.toNat % 2 = 1) := by
  rw [rawFlagC, BitVec.getLsbD, Nat.testBit_zero]

/-- The literal is big-endian (R96). -/
theorem literal_toNat (raw2 raw3 : Byte) : (literal raw2 raw3).toNat = raw2.toNat * 256 + raw3.toNat := by
  show (raw2 ++ raw3).toNat = _
  rw [BitVec.toNat_append, ← Nat.shiftLeft_add_eq_or_of_lt raw3.isLt, Nat.shiftLeft_eq]

/-! The opcode a word selects -/

theorem opcodeOfNat_of_code {raw0 : Byte} {op : Opcode} (h : raw0.toNat / 8 = op.code.toNat) :
    opcodeOfNat (opcodeField raw0).toNat = some op := by
  rw [opcodeField_toNat, h, opcodeOfNat_code]

/-- The five bits of byte 0 always name an opcode (R99). -/
theorem exists_opcode (raw0 : Byte) : ∃ op, opcodeOfNat (opcodeField raw0).toNat = some op ∧ opcodeField raw0 = op.code := by
  obtain ⟨op, hop, hcode⟩ := opcodeOfNat_of_lt (opcodeField raw0).isLt
  exact ⟨op, hop, BitVec.eq_of_toNat_eq hcode.symm⟩

theorem decodeRecord_of_opcode {raw0 : Byte} {op : Opcode} (h : opcodeOfNat (opcodeField raw0).toNat = some op)
    (raw1 raw2 raw3 : Byte) : decodeRecord raw0 raw1 raw2 raw3 = .ok (decodeFields op raw0 raw1 raw2 raw3) := by
  rw [decodeRecord, h]

@[simp] theorem opcodeOf_instrOfRecord (i : Record) : opcodeOf (instrOfRecord i) = i.opcode := by
  obtain ⟨op, _, _, _, _, _, _, _⟩ := i
  cases op <;> rfl

/-- The instruction carries the whole decoded record: its constructor has every field the decoder copies. -/
theorem recordOfInstr_decodeFields (op : Opcode) (raw0 raw1 raw2 raw3 : Byte) :
    recordOfInstr (instrOfRecord (decodeFields op raw0 raw1 raw2 raw3)) = decodeFields op raw0 raw1 raw2 raw3 := by
  cases op <;> rfl

/-! Encode, then decode -/

theorem and_eq_of_flagOk {present flag : Bool} (h : flagOk present flag = true) : (present && flag) = flag := by
  cases present with
  | true => rfl
  | false => simpa [flagOk] using h

theorem keep_eq_of_fieldOk {n : Nat} {present : Bool} {v : BitVec n} (h : fieldOk present v = true) :
    keep present v = v := by
  cases present with
  | true => rfl
  | false =>
    have hzero : v = 0#n := by simpa [fieldOk] using h
    rw [hzero, keep_false]

/-- What the bytes hold in the place of an absent field does not matter. -/
theorem keep_absent {n : Nat} {present : Bool} (h : present = false) (v v' : BitVec n) : keep present v = keep present v' := by
  rw [h, keep_false, keep_false]

/-- The literal lies where `a` and `b` lie, so no shape has it beside them (R97). -/
theorem presence_of_literal {op : Opcode} (h : (presence op).l = true) :
    (presence op).a = false ∧ (presence op).b = false := by
  revert h
  unfold presence
  cases shapeOf op <;> decide

/-- A normalized record is kept whole by the presence row of its opcode (R15). -/
theorem kept_of_normalized {i : Record} (h : i.normalized = true) :
    ((presence i.opcode).aFlag && i.aFlag) = i.aFlag ∧ ((presence i.opcode).bFlag && i.bFlag) = i.bFlag ∧
      ((presence i.opcode).cFlag && i.cFlag) = i.cFlag ∧ keep (presence i.opcode).r i.r = i.r ∧
      keep (presence i.opcode).a i.a = i.a ∧ keep (presence i.opcode).b i.b = i.b ∧
      keep (presence i.opcode).l i.l = i.l := by
  simp only [Record.normalized, Bool.and_eq_true] at h
  obtain ⟨⟨⟨⟨⟨⟨hA, hB⟩, hC⟩, hr⟩, ha⟩, hb⟩, hl⟩ := h
  exact ⟨and_eq_of_flagOk hA, and_eq_of_flagOk hB, and_eq_of_flagOk hC, keep_eq_of_fieldOk hr, keep_eq_of_fieldOk ha,
    keep_eq_of_fieldOk hb, keep_eq_of_fieldOk hl⟩

/-- Decoding behind an encoded byte 0 gives back the opcode and the flags, and the fields from the other bytes. -/
theorem decodeRecord_encodeByte0 (op : Opcode) (fa fb fc : Bool) (raw1 raw2 raw3 : Byte) :
    decodeRecord (encodeByte0 op fa fb fc) raw1 raw2 raw3 =
      .ok ⟨op, (presence op).aFlag && fa, (presence op).bFlag && fb, (presence op).cFlag && fc, keep (presence op).r raw1,
        keep (presence op).a raw2, keep (presence op).b raw3, keep (presence op).l (literal raw2 raw3)⟩ := by
  obtain ⟨hop, hA, hB, hC⟩ := encodeByte0_fields op fa fb fc
  rw [decodeRecord_of_opcode (op := op) (by rw [hop, opcodeOfNat_code]), decodeFields, hA, hB, hC]

/-- The first law of R104. -/
theorem decodeRecord_encodeRecord {i : Record} (h : i.normalized = true) :
    ∃ raw0 raw1 raw2 raw3, encodeRecord i = [raw0, raw1, raw2, raw3] ∧ decodeRecord raw0 raw1 raw2 raw3 = .ok i := by
  obtain ⟨hA, hB, hC, hr, ha, hb, hl⟩ := kept_of_normalized h
  simp only [encodeRecord, hA, hB, hC, hr, ha, hb]
  cases hlit : (presence i.opcode).l with
  | true =>
    obtain ⟨hna, hnb⟩ := presence_of_literal hlit
    refine ⟨_, _, _, _, rfl, ?_⟩
    rw [decodeRecord_encodeByte0, hA, hB, hC, hr, keep_absent hna _ i.a, ha, keep_absent hnb _ i.b, hb, literal_bytes, hl]
  | false =>
    refine ⟨_, _, _, _, rfl, ?_⟩
    rw [decodeRecord_encodeByte0, hA, hB, hC, hr, ha, hb, keep_absent hlit _ i.l, hl]

/-! Decode, then encode -/

/-- The byte that keeps a present field and clears an absent one. -/
def byteMask (present : Bool) : Byte := if present then 0xFF#8 else 0x00#8

theorem keep_keep {n : Nat} (present : Bool) (v : BitVec n) : keep present (keep present v) = keep present v := by
  cases present <;> rfl

theorem keep_eq_and_byteMask (present : Bool) (v : Byte) : keep present v = v &&& byteMask present := by
  cases present with
  | true => exact (BitVec.and_allOnes (x := v)).symm
  | false => exact BitVec.and_zero.symm

/-- The byte that keeps the opcode and the present flags of byte 0. -/
def flagMask (p : Presence) : Byte := 31#5 ++ BitVec.ofBool p.aFlag ++ BitVec.ofBool p.bFlag ++ BitVec.ofBool p.cFlag

/-- The care mask of R97, read off the presence row: bytes 2 and 3 hold `a` and `b`, or the literal. -/
theorem careMask_eq (op : Opcode) :
    careMask (shapeOf op) =
      wordOfBytes (flagMask (presence op)) (byteMask (presence op).r) (byteMask ((presence op).a || (presence op).l))
        (byteMask ((presence op).b || (presence op).l)) := by
  unfold presence
  cases shapeOf op <;> rfl

theorem wordOfBytes_and (a b c d a' b' c' d' : Byte) :
    wordOfBytes a b c d &&& wordOfBytes a' b' c' d' = wordOfBytes (a &&& a') (b &&& b') (c &&& c') (d &&& d') := by
  refine BitVec.eq_of_getLsbD_eq fun k _ => ?_
  simp only [BitVec.getLsbD_and, wordOfBytes_getLsbD]
  split_ifs <;> rfl

theorem encodeByte0_and_flagMask (op : Opcode) (fa fb fc : Bool) (p : Presence) :
    encodeByte0 op (p.aFlag && fa) (p.bFlag && fb) (p.cFlag && fc) = encodeByte0 op fa fb fc &&& flagMask p := by
  have hbit (x y : Bool) : BitVec.ofBool (x && y) = BitVec.ofBool y &&& BitVec.ofBool x := by
    rw [BitVec.ofBool_and_ofBool, Bool.and_comm]
  have hcode : op.code = op.code &&& 31#5 := (BitVec.and_allOnes (x := op.code)).symm
  show op.code ++ _ ++ _ ++ _ = (op.code ++ _ ++ _ ++ _) &&& (31#5 ++ _ ++ _ ++ _ : BitVec (5 + 1 + 1 + 1))
  rw [hbit, hbit, hbit, BitVec.and_append, BitVec.and_append, BitVec.and_append, ← hcode]

/-- Encoding what was decoded gives the fetched bytes, each cut to what the presence row marks. -/
theorem encodeRecord_decodeFields {raw0 : Byte} {op : Opcode} (h : opcodeField raw0 = op.code) (raw1 raw2 raw3 : Byte) :
    encodeRecord (decodeFields op raw0 raw1 raw2 raw3) =
      [raw0 &&& flagMask (presence op), raw1 &&& byteMask (presence op).r,
        raw2 &&& byteMask ((presence op).a || (presence op).l), raw3 &&& byteMask ((presence op).b || (presence op).l)] := by
  have hbyte0 := encodeByte0_and_flagMask op (rawFlagA raw0) (rawFlagB raw0) (rawFlagC raw0) (presence op)
  rw [encodeByte0_decoded raw0 op h] at hbyte0
  obtain ⟨hhigh, hlow⟩ := bytes_literal raw2 raw3
  simp only [encodeRecord, decodeFields, ← Bool.and_assoc, Bool.and_self, hbyte0, keep_keep, ← keep_eq_and_byteMask]
  cases hlit : (presence op).l with
  | true => simp [hhigh, hlow]
  | false => simp

/-- The second law of R104. -/
theorem wordOfList_encodeRecord_decodeFields {raw0 : Byte} {op : Opcode} (h : opcodeField raw0 = op.code)
    (raw1 raw2 raw3 : Byte) :
    wordOfList (encodeRecord (decodeFields op raw0 raw1 raw2 raw3)) =
      wordOfBytes raw0 raw1 raw2 raw3 &&& careMask (shapeOf op) := by
  rw [encodeRecord_decodeFields h, careMask_eq, wordOfBytes_and, wordOfList]

/-- Settles O1: each direction goes through the presence row of the opcode, which names both the fields and the mask. -/
theorem decodeEncodeRoundTrip : Obligations.DecodeEncodeRoundTrip := by
  refine ⟨fun i hi => decodeRecord_encodeRecord hi, fun raw0 raw1 raw2 raw3 => ?_⟩
  obtain ⟨op, hop, hcode⟩ := exists_opcode raw0
  exact ⟨_, decodeRecord_of_opcode hop raw1 raw2 raw3, wordOfList_encodeRecord_decodeFields hcode raw1 raw2 raw3⟩

/-! The opcode map -/

/-- The record of one shape of R97: what is copied from flags `A B C` and bytes `r a b`, and false or 0 elsewhere. -/
def recordOfShape (op : Opcode) (A B C : Bool) (r a b : Byte) : Shape → Record
  | .Z => ⟨op, false, false, false, 0#8, 0#8, 0#8, 0#16⟩
  | .J => ⟨op, false, false, false, r, 0#8, 0#8, 0#16⟩
  | .BR => ⟨op, A, false, false, r, a, 0#8, 0#16⟩
  | .T => ⟨op, A, B, C, r, a, b, 0#16⟩
  | .U => ⟨op, A, B, false, r, a, 0#8, 0#16⟩
  | .P => ⟨op, false, false, false, r, a, 0#8, 0#16⟩
  | .Q => ⟨op, A, B, C, r, 0#8, 0#8, 0#16⟩
  | .L => ⟨op, A, false, false, r, 0#8, 0#8, literal a b⟩

theorem decodeFields_eq_recordOfShape (op : Opcode) (raw0 r a b : Byte) :
    decodeFields op raw0 r a b =
      recordOfShape op (decide (raw0.toNat / 4 % 2 = 1)) (decide (raw0.toNat / 2 % 2 = 1)) (decide (raw0.toNat % 2 = 1))
        r a b (shapeOf op) := by
  rw [← rawFlagA_eq, ← rawFlagB_eq, ← rawFlagC_eq]
  unfold decodeFields presence
  cases shapeOf op <;> rfl

/-- One row of the opcode map: the opcode's number in the top five bits selects it, and the record is that of its shape. -/
theorem decodes_of_code {raw0 : Byte} (r a b : Byte) (op : Opcode) (h : raw0.toNat / 8 = op.code.toNat) :
    let selected := recordOfShape op (decide (raw0.toNat / 4 % 2 = 1)) (decide (raw0.toNat / 2 % 2 = 1))
      (decide (raw0.toNat % 2 = 1)) r a b (shapeOf op)
    decodeRecord raw0 r a b = .ok selected ∧ ∃ i, decode [raw0, r, a, b] = .ok i ∧ recordOfInstr i = selected := by
  have hop := opcodeOfNat_of_code h
  rw [← decodeFields_eq_recordOfShape]
  exact ⟨decodeRecord_of_opcode hop r a b, _, Memory.decode_of_opcode hop r a b, recordOfInstr_decodeFields op raw0 r a b⟩

/-- Settles O3: one row per opcode, `SET`'s with the number its literal stands for. -/
theorem decodeFollowsTheOpcodeMap : Obligations.DecodeFollowsTheOpcodeMap := by
  intro raw0 r a b
  have row := decodes_of_code (raw0 := raw0) r a b
  exact ⟨row .nop, row .jmp, row .bra, row .hlt, row .equ, row .neq, row .gtn, row .ltn, row .add, row .sub, row .mlt,
    row .div, row .mod, row .inc, row .dec, row .qop, row .eor, row .and, row .xor, row .not, row .lsh, row .rsh,
    row .rot, row .cas, fun h => ⟨literal a b, literal_toNat a b, row .set h⟩, row .cop, row .lod, row .sav, row .qdc,
    row .cdc, row .rea, row .wri⟩

/-! No word is refused -/

/-- The decoded instruction has the opcode that the number in the top five bits names (R98, R99). -/
theorem decode_names_opcode (raw0 raw1 raw2 raw3 : Byte) :
    ∃ i, decode [raw0, raw1, raw2, raw3] = .ok i ∧ (opcodeOf i).code.toNat = raw0.toNat / 8 := by
  obtain ⟨op, hop, hcode⟩ := exists_opcode raw0
  refine ⟨_, Memory.decode_of_opcode hop raw1 raw2 raw3, ?_⟩
  rw [opcodeOf_instrOfRecord, ← opcodeField_toNat, hcode, decodeFields]

/-! Neither a request nor a draw touches the status. -/

theorem sameStatus_refl (s : State) : sameStatus s s := ⟨rfl, rfl, rfl, rfl⟩
theorem sameStatus_sendRequest (s : State) (req : PortRequest) : sameStatus s (sendRequest s req) := ⟨rfl, rfl, rfl, rfl⟩
theorem sameStatus_drawQop (s : State) : sameStatus s (drawQop s) := ⟨rfl, rfl, rfl, rfl⟩

/-- The answer is an effect committed (R136), on `s` or on a state a request or a draw has made of it. -/
def Completes (s : State) (o : Out) : Prop := ∃ s₀ e, sameStatus s s₀ ∧ o = .next (commit s₀ e)

/-- A result that is an error exactly when the prepared divisor is 0 completes, or takes the divide fault (R191). -/
theorem finishAlu_division {A B : Word16} {op : Word16 → Word16 → AluResult} {v : Word16}
    (hzero : B = 0#16 → op A B = .error .divideByZero) (hdefined : B ≠ 0#16 → op A B = .ok v) (s : State) (r : RegAddr) :
    Completes s (finishAlu s r (op A B)) ∨
      (B = 0#16 ∧ finishAlu s r (op A B) = .next (raiseFault s .divideByZero)) := by
  by_cases hB : B = 0#16
  · exact .inr ⟨hB, by rw [hzero hB, finishAlu_error]⟩
  · exact .inl ⟨s, _, sameStatus_refl s, by rw [hdefined hB, finishAlu_ok]⟩

/-- An instruction that sends a request and commits an effect on `Ok` completes, or takes the port's fault (R271, R272). -/
theorem exec_transact {i : Instr} {s : State} {req : PortRequest} {onOk : State → Word16 → State}
    (hreq : requestOf s i = some req) (hexec : exec i s = transact s req onOk)
    (honOk : ∀ t data, ∃ e, onOk t data = commit t e) :
    Completes s (exec i s) ∨ ∃ req, requestOf s i = some req ∧ portResponse s req = .fail ∧
      exec i s = .next (raiseFault (sendRequest s req) .portFault) := by
  rw [hexec]
  rcases transact_next s req onOk with ⟨data, -, hnext⟩ | hfail
  · obtain ⟨e, he⟩ := honOk (sendRequest s req) data
    exact .inl ⟨sendRequest s req, e, sameStatus_sendRequest s req, by rw [hnext, he]⟩
  · exact .inr ⟨req, hreq, hfail⟩

/-- Everything an instruction can answer (R134, R136, R303): it completes, or it takes the divide fault or the port's. -/
theorem exec_completes_or_faults (i : Instr) (s : State) :
    Completes s (exec i s) ∨ (dividesByZero s i ∧ exec i s = .next (raiseFault s .divideByZero)) ∨
      (∃ req, requestOf s i = some req ∧ portResponse s req = .fail ∧
        exec i s = .next (raiseFault (sendRequest s req) .portFault)) := by
  have hstore (r : RegAddr) (t : State) (data : Word16) : ∃ e, storeData r t data = commit t e := ⟨_, storeData_eq r t data⟩
  cases i with
  | div fa fb fc r a b => exact (finishAlu_division aluDiv_of_eq aluDiv_of_ne s r).imp_right .inl
  | mod fa fb fc r a b => exact (finishAlu_division aluMod_of_eq aluMod_of_ne s r).imp_right .inl
  | qdc fa fb fc r a b => exact (exec_transact rfl (exec_qdc fa fb fc r a b s) (hstore r)).imp_right .inr
  | cdc fa fb fc r a b => exact (exec_transact rfl (exec_cdc fa fb fc r a b s) (hstore r)).imp_right .inr
  | rea r a => exact (exec_transact rfl (exec_rea r a s) (hstore r)).imp_right .inr
  | wri r a => exact (exec_transact rfl (exec_wri r a s) fun t _ => ⟨advance t, rfl⟩).imp_right .inr
  | qop fa fb fc r => exact .inl ⟨drawQop s, _, sameStatus_drawQop s, rfl⟩
  | _ => exact .inl ⟨s, _, sameStatus_refl s, rfl⟩

/-- The causes an instruction can record; the decoder's is none of them (R305, R306). -/
theorem faultCause_of_exec {i : Instr} {s t : State} (h : exec i s = .next t) :
    t.faultCause = s.faultCause ∨ t.faultCause = .divideByZero ∨ t.faultCause = .portFault := by
  rcases exec_completes_or_faults i s with ⟨s₀, e, ⟨-, hcause, -, -⟩, hexec⟩ | ⟨-, hexec⟩ | ⟨req, -, -, hexec⟩
  all_goals obtain rfl := Host.Outcome.next.inj (h.symm.trans hexec)
  · exact .inl hcause
  · exact .inr (.inl rfl)
  · exact .inr (.inr rfl)

/-- The causes a step can record (R130, R302): every fetched word decodes, so `DECODE_ERROR` is none of them (R301). -/
theorem faultCause_of_step {s t : State} (h : step s = .next t) :
    t.faultCause = s.faultCause ∨ t.faultCause = .outOfBounds ∨ t.faultCause = .divideByZero ∨
      t.faultCause = .portFault := by
  cases hrun : s.run with
  | halted =>
    obtain rfl := Host.Outcome.next.inj (h.symm.trans (step_halted hrun))
    exact .inl rfl
  | running =>
    by_cases hpc : s.pc.toNat ≤ 65532
    · obtain ⟨i, hi⟩ := Memory.exists_aboutToRun hrun hpc
      rw [Memory.step_of_aboutToRun hi] at h
      exact (faultCause_of_exec h).imp_right .inr
    · obtain rfl := Host.Outcome.next.inj (h.symm.trans (step_outOfBounds hrun (Nat.lt_of_not_le hpc)))
      exact .inr (.inl rfl)

/-- Settles O4: the opcode map is total, and the causes a step can record leave `DECODE_ERROR` out. -/
theorem everyWordDecodes : Obligations.EveryWordDecodes := by
  refine ⟨decode_names_opcode, fun s t hstep hold => ?_⟩
  rcases faultCause_of_step hstep with hcause | hcause | hcause | hcause <;> rw [hcause]
  · exact hold
  all_goals decide

end Sys2Proof.Proofs.Encoding
end

section
/-! Control transfer (R150 to R153): an effect that only sets `pc`, and the next step's fault where no fetch is possible. -/

namespace Sys2Proof.Proofs.Control

open Sys2Proof.Machine Sys2Proof.Safety

/-- Completing an effect whose one entry is its `pc_next` (R133, R136). -/
theorem complete_onlyMovesPc (s : State) (target : Word16) :
    OnlyMovesPc s target (complete s { advance s with pcNext := target }) :=
  ⟨_, complete_next s _, rfl, fun _ => rfl, fun _ => rfl, ⟨rfl, rfl, rfl, rfl⟩, ⟨rfl, rfl, rfl, rfl⟩⟩

/-- A jump never faults itself: the step after it does, where its target leaves no room for a fetch (R65, R302). -/
theorem step_outOfBounds_of_onlyMovesPc {s t : State} {target : Word16} (hmove : OnlyMovesPc s target (.next t))
    (hrun : s.run = .running) (htarget : 65532 < target.toNat) : step t = .next (raiseFault t .outOfBounds) := by
  obtain ⟨t', hnext, rfl, -, -, ⟨hkept, -⟩, -⟩ := hmove
  obtain rfl := Host.Outcome.next.inj hnext
  exact step_outOfBounds (hkept.trans hrun) htarget

/-- The words of `JMP` (R97 shape J): the low three bits of byte 0 and the last two bytes are free. -/
theorem decode_jmp {raw0 : Byte} (h : raw0.toNat / 8 = 1) (raw1 raw2 raw3 : Byte) :
    decode [raw0, raw1, raw2, raw3] = .ok (.jmp raw1) :=
  Memory.decode_of_opcode (Encoding.opcodeOfNat_of_code (op := .jmp) h) raw1 raw2 raw3

theorem exec_jmp_onlyMovesPc (s : State) (r : RegAddr) : OnlyMovesPc s (readReg s r) (exec (.jmp r) s) := by
  rw [exec_jmp]
  exact complete_onlyMovesPc s (readReg s r)

/-- Settles O36: the jump keeps the block Running, so the step after it is the one that meets the bound of the fetch. -/
theorem jmpGoesToTheRegister : Obligations.JmpGoesToTheRegister := by
  refine ⟨fun raw0 raw1 raw2 raw3 h => decode_jmp h raw1 raw2 raw3, exec_jmp_onlyMovesPc, ?_⟩
  intro s t u r hrun hexec htarget hstep
  have hmove : OnlyMovesPc s (readReg s r) (.next t) := hexec ▸ exec_jmp_onlyMovesPc s r
  have hfault : step t = .next (raiseFault t .outOfBounds) := step_outOfBounds_of_onlyMovesPc hmove hrun htarget
  obtain rfl := Host.Outcome.next.inj (hstep.symm.trans hfault)
  exact ⟨raiseFault_faultCause t _, raiseFault_run t _⟩

end Sys2Proof.Proofs.Control
end

section
/-! Moves and memory access (R250): the four commit an effect that does not halt, so only the fetch can stop their step. -/

namespace Sys2Proof.Proofs.Move

open Sys2Proof.Machine Sys2Proof.Safety

/-- R136: a commit leaves the fault record alone, and the run state too unless the effect halts. -/
theorem sameStatus_commit {s : State} {e : Effect} (he : e.halt = false) : sameStatus s (commit s e) := by
  have hrun : (commit s e).run = s.run := by rw [commit_run, he]; rfl
  exact ⟨hrun, commit_faultCause s e, commit_faultPc s e, commit_faultRaw s e⟩

/-- The effect of a move (R253 to R256): a register for `SET`, `COP` and `LOD`, a byte of memory for `SAV`, never a halt. -/
theorem exec_move_commits {i : Instr} (hi : opcodeOf i ∈ [Opcode.set, .cop, .lod, .sav]) (s : State) :
    ∃ e, e.halt = false ∧ exec i s = .next (commit s e) := by
  cases i with
  | set fa r l => exact ⟨_, rfl, by rw [exec_set, completeWrite_next]⟩
  | cop fa fb r a => exact ⟨_, rfl, by rw [exec_cop, completeWrite_next]⟩
  | lod fa fb r a => exact ⟨_, rfl, by rw [exec_lod, completeWrite_next]⟩
  | sav fa fb r a => exact ⟨_, rfl, by rw [exec_sav, complete_next]⟩
  | _ => simp [opcodeOf, recordOfInstr] at hi

theorem exec_move_sameStatus {i : Instr} (hi : opcodeOf i ∈ [Opcode.set, .cop, .lod, .sav]) (s : State) :
    ∃ t, exec i s = .next t ∧ sameStatus s t := by
  obtain ⟨e, he, hexec⟩ := exec_move_commits hi s
  exact ⟨commit s e, hexec, sameStatus_commit he⟩

/-- Settles O48: a fetched move keeps the record as it was, so a newly recorded cause comes from a fetch out of bounds. -/
theorem movesRaiseNoFault : Obligations.MovesRaiseNoFault := by
  refine ⟨fun i s hi => exec_move_sameStatus hi s, fun s t hrun hclean hstep hfault hmove => ?_⟩
  by_cases hpc : s.pc.toNat ≤ 65532
  · obtain ⟨i, habout, hi⟩ := hmove hpc
    obtain ⟨t', hexec, -, hcause, -, -⟩ := exec_move_sameStatus hi s
    rw [Memory.step_of_aboutToRun habout, hexec] at hstep
    obtain rfl := Host.Outcome.next.inj hstep
    exact absurd (hcause.trans hclean) hfault
  · obtain rfl := Host.Outcome.next.inj (hstep.symm.trans (step_outOfBounds hrun (Nat.lt_of_not_le hpc)))
    exact raiseFault_faultCause s .outOfBounds

end Sys2Proof.Proofs.Move
end

section
/-! What an instruction does, in one form for all 32 (R134 to R136, R303): it draws or sends, computes a result, and then
commits one effect or enters a fault. The whole-machine statements are read off this form. -/

namespace Sys2Proof.Proofs.Effects

open Sys2Proof.Machine Sys2Proof.Safety

/-! The parts of the form -/

/-- The answer of the port as a result: its datum, or `PORT_FAULT` (R271, R272). -/
def resultOfResponse : PortResponse → AluResult
  | .ok data => .ok data
  | .fail => .error .portFault

/-- The value an instruction computes for its destination, or the fault it takes instead; 0 where it computes none. -/
def resultOf (s : State) : Instr → AluResult
  | .equ fa _ _ _ a b => aluEqu (opnd (readReg s a) fa) (opnd (readReg s b) fa)
  | .neq fa _ _ _ a b => aluNeq (opnd (readReg s a) fa) (opnd (readReg s b) fa)
  | .gtn fa _ _ _ a b => aluGtn (opnd (readReg s a) fa) (opnd (readReg s b) fa)
  | .ltn fa _ _ _ a b => aluLtn (opnd (readReg s a) fa) (opnd (readReg s b) fa)
  | .add fa _ _ _ a b => aluAdd (opnd (readReg s a) fa) (opnd (readReg s b) fa)
  | .sub fa _ _ _ a b => aluSub (opnd (readReg s a) fa) (opnd (readReg s b) fa)
  | .mlt fa _ _ _ a b => aluMlt (opnd (readReg s a) fa) (opnd (readReg s b) fa)
  | .div fa _ _ _ a b => aluDiv (opnd (readReg s a) fa) (opnd (readReg s b) fa)
  | .mod fa _ _ _ a b => aluMod (opnd (readReg s a) fa) (opnd (readReg s b) fa)
  | .eor fa _ _ _ a b => aluEor (opnd (readReg s a) fa) (opnd (readReg s b) fa)
  | .and fa _ _ _ a b => aluAnd (opnd (readReg s a) fa) (opnd (readReg s b) fa)
  | .xor fa _ _ _ a b => aluXor (opnd (readReg s a) fa) (opnd (readReg s b) fa)
  | .lsh fa _ _ _ a b => aluLsh (opnd (readReg s a) fa) (opnd (readReg s b) fa)
  | .rsh fa _ _ _ a b => aluRsh (opnd (readReg s a) fa) (opnd (readReg s b) fa)
  | .cas fa _ fc _ a b => aluCas fc (opnd (readReg s a) fa) (opnd (readReg s b) fa)
  | .inc fa _ _ a => aluInc (opnd (readReg s a) fa)
  | .dec fa _ _ a => aluDec (opnd (readReg s a) fa)
  | .not fa _ _ a => aluNot (opnd (readReg s a) fa)
  | .rot fa _ _ a => aluRot (opnd (readReg s a) fa)
  | .set _ _ l => .ok l
  | .cop _ _ _ a => .ok (readReg s a)
  | .lod _ _ _ a => .ok (zext16 (s.mem.read (readReg s a).toNat))
  | .qop fa fb fc _ => .ok (qopValue s fa fb fc)
  | .qdc fa fb fc _ a b => resultOfResponse (portResponse s ⟨.query, readReg s a, readReg s b, ⟨fa, fb, fc⟩⟩)
  | .cdc fa fb fc _ a b => resultOfResponse (portResponse s ⟨.configure, readReg s a, readReg s b, ⟨fa, fb, fc⟩⟩)
  | .rea _ a => resultOfResponse (portResponse s ⟨.read, readReg s a, 0#16, ⟨false, false, false⟩⟩)
  | .wri r a => resultOfResponse (portResponse s ⟨.write, readReg s a, readReg s r, ⟨false, false, false⟩⟩)
  | .nop | .jmp _ | .bra _ _ _ | .hlt | .sav _ _ _ _ => .ok 0#16

/-- The byte an instruction stores, with its address: `SAV` alone stores one (R67, R256). -/
def storeOf (s : State) : Instr → Option (Word16 × Byte)
  | .sav _ _ r a => some (readReg s a, lowByte (readReg s r))
  | _ => none

/-- `HLT` alone halts without a fault (R151). -/
def haltsOf : Instr → Bool
  | .hlt => true
  | _ => false

/-- The effect an instruction commits with the result `v` (R135). -/
def effectOf (s : State) (i : Instr) (v : Word16) : Effect where
  wreg := (destination i).map (·, v)
  wmem := storeOf s i
  pcNext := (jumpTarget s i).getD (nextPc s.pc)
  halt := haltsOf i

/-- The state after the instruction's request or draw, before its effect or fault (R271, R275). -/
def afterDraw (s : State) : Instr → State
  | .qop _ _ _ _ => drawQop s
  | i => ((requestOf s i).map (sendRequest s)).getD s

/-- The end of an instruction from the state `s₀`: its effect committed, or its fault taken. -/
def settle (s₀ s : State) (i : Instr) : AluResult → State
  | .ok v => commit s₀ (effectOf s i v)
  | .error c => raiseFault s₀ c

@[simp] theorem settle_ok (s₀ s : State) (i : Instr) (v : Word16) :
    settle s₀ s i (.ok v) = commit s₀ (effectOf s i v) := rfl
@[simp] theorem settle_error (s₀ s : State) (i : Instr) (c : FaultCause) :
    settle s₀ s i (.error c) = raiseFault s₀ c := rfl

@[simp] theorem effectOf_wreg (s : State) (i : Instr) (v : Word16) :
    (effectOf s i v).wreg = (destination i).map (·, v) := rfl
@[simp] theorem effectOf_wmem (s : State) (i : Instr) (v : Word16) : (effectOf s i v).wmem = storeOf s i := rfl
@[simp] theorem effectOf_pcNext (s : State) (i : Instr) (v : Word16) :
    (effectOf s i v).pcNext = (jumpTarget s i).getD (nextPc s.pc) := rfl
@[simp] theorem effectOf_halt (s : State) (i : Instr) (v : Word16) : (effectOf s i v).halt = haltsOf i := rfl

theorem haltsOf_iff (i : Instr) : haltsOf i = true ↔ i = .hlt := by
  cases i <;> simp [haltsOf]

theorem storeOf_of_ne_sav {i : Instr} (h : opcodeOf i ≠ .sav) (s : State) : storeOf s i = none := by
  cases i with
  | sav fa fb r a => exact absurd rfl h
  | _ => rfl

/-! The state after the draw -/

theorem afterDraw_of_requestOf {s : State} {i : Instr} {req : PortRequest} (h : requestOf s i = some req) :
    afterDraw s i = sendRequest s req := by
  cases i <;> cases h <;> rfl

/-- Everything the draw can do: a request sent, a value drawn by `QOP`, or nothing. -/
theorem afterDraw_cases (s : State) (i : Instr) :
    (∃ req, requestOf s i = some req ∧ afterDraw s i = sendRequest s req) ∨
      (requestOf s i = none ∧ afterDraw s i = drawQop s) ∨ (requestOf s i = none ∧ afterDraw s i = s) := by
  cases hreq : requestOf s i with
  | some req => exact .inl ⟨req, rfl, afterDraw_of_requestOf hreq⟩
  | none =>
    refine .inr ?_
    cases i with
    | qop fa fb fc r => exact .inl ⟨rfl, rfl⟩
    | qdc | cdc | rea | wri => cases hreq
    | _ => exact .inr ⟨rfl, rfl⟩

section
variable (s : State) (i : Instr)

/-- A draw moves the environment and nothing else. -/
theorem afterDraw_only_env : ∃ log answers values draws, afterDraw s i =
    { s with portLog := log, portAnswers := answers, qopAnswers := values, draws := draws } := by
  rcases afterDraw_cases s i with ⟨req, -, h⟩ | ⟨-, h⟩ | ⟨-, h⟩ <;> exact ⟨_, _, _, _, h⟩

@[simp] theorem afterDraw_regs : (afterDraw s i).regs = s.regs := by
  obtain ⟨_, _, _, _, h⟩ := afterDraw_only_env s i; rw [h]
@[simp] theorem afterDraw_pc : (afterDraw s i).pc = s.pc := by
  obtain ⟨_, _, _, _, h⟩ := afterDraw_only_env s i; rw [h]
@[simp] theorem afterDraw_mem : (afterDraw s i).mem = s.mem := by
  obtain ⟨_, _, _, _, h⟩ := afterDraw_only_env s i; rw [h]
@[simp] theorem afterDraw_run : (afterDraw s i).run = s.run := by
  obtain ⟨_, _, _, _, h⟩ := afterDraw_only_env s i; rw [h]
@[simp] theorem afterDraw_faultCause : (afterDraw s i).faultCause = s.faultCause := by
  obtain ⟨_, _, _, _, h⟩ := afterDraw_only_env s i; rw [h]
@[simp] theorem afterDraw_faultPc : (afterDraw s i).faultPc = s.faultPc := by
  obtain ⟨_, _, _, _, h⟩ := afterDraw_only_env s i; rw [h]
@[simp] theorem afterDraw_faultRaw : (afterDraw s i).faultRaw = s.faultRaw := by
  obtain ⟨_, _, _, _, h⟩ := afterDraw_only_env s i; rw [h]

/-- The history grows by the instruction's request, or not at all (R71). -/
@[simp] theorem afterDraw_portLog : (afterDraw s i).portLog = (requestOf s i).toList ++ s.portLog := by
  rcases afterDraw_cases s i with ⟨req, hreq, h⟩ | ⟨hreq, h⟩ | ⟨hreq, h⟩ <;> rw [h, hreq] <;> rfl
@[simp] theorem readReg_afterDraw (q : RegAddr) : readReg (afterDraw s i) q = readReg s q :=
  readReg_congr (afterDraw_regs s i) q

end

/-! The form -/

theorem finishAlu_eq_settle (s : State) (i : Instr) (r : RegAddr) (res : AluResult)
    (heffect : ∀ v, effectOf s i v = ⟨some (r, v), none, nextPc s.pc, false⟩) :
    finishAlu s r res = .next (settle s s i res) := by
  cases res with
  | ok v => rw [settle_ok, heffect, finishAlu_ok]
  | error c => rw [settle_error, finishAlu_error]

theorem transact_eq_settle {s : State} {i : Instr} {req : PortRequest} (hreq : requestOf s i = some req)
    {onOk : State → Word16 → State} (honOk : ∀ v, onOk (sendRequest s req) v = commit (sendRequest s req) (effectOf s i v)) :
    transact s req onOk = .next (settle (afterDraw s i) s i (resultOfResponse (portResponse s req))) := by
  rw [afterDraw_of_requestOf hreq]
  cases hans : portResponse s req with
  | ok data => rw [transact_ok hans, honOk]; rfl
  | fail => rw [transact_fail hans]; rfl

/-- Every instruction draws or sends, then commits its effect or takes its fault. -/
theorem exec_eq_settle (i : Instr) (s : State) :
    exec i s = .next (settle (afterDraw s i) s i (resultOf s i)) := by
  cases i with
  | bra fa r a =>
    rw [exec_bra, complete_next]
    by_cases hcond : opnd (readReg s a) fa = 0#16 <;> simp [resultOf, settle, effectOf, jumpTarget, hcond] <;> rfl
  | div fa fb fc r a b => exact finishAlu_eq_settle s _ r _ fun _ => rfl
  | mod fa fb fc r a b => exact finishAlu_eq_settle s _ r _ fun _ => rfl
  | qdc fa fb fc r a b => exact transact_eq_settle rfl fun _ => rfl
  | cdc fa fb fc r a b => exact transact_eq_settle rfl fun _ => rfl
  | rea r a => exact transact_eq_settle rfl fun _ => rfl
  | wri r a => exact transact_eq_settle (onOk := fun t _ => commit t (advance t)) rfl fun _ => rfl
  | _ => rfl

/-! The faults -/

theorem portFails_iff (s : State) (i : Instr) :
    portFails s i ↔ ∃ req, requestOf s i = some req ∧ portResponse s req = .fail := by
  unfold portFails
  cases requestOf s i <;> simp

/-- The prepared divisor depends on the registers alone. -/
theorem dividesByZero_congr {s t : State} (h : t.regs = s.regs) (i : Instr) : dividesByZero t i = dividesByZero s i := by
  cases i with
  | div | mod => simp only [dividesByZero, readReg_congr h]
  | _ => rfl

/-- A request depends on the registers alone. -/
theorem requestOf_congr {s t : State} (h : t.regs = s.regs) (i : Instr) : requestOf t i = requestOf s i := by
  cases i with
  | qdc | cdc | rea | wri => simp only [requestOf, readReg_congr h]
  | _ => rfl

theorem requestOf_of_dividesByZero {s : State} {i : Instr} (h : dividesByZero s i) : requestOf s i = none := by
  cases i with
  | qdc | cdc | rea | wri => exact h.elim
  | _ => rfl

theorem afterDraw_of_dividesByZero {s : State} {i : Instr} (h : dividesByZero s i) : afterDraw s i = s := by
  cases i with
  | div | mod => rfl
  | _ => exact h.elim

theorem resultOf_of_requestOf {s : State} {i : Instr} {req : PortRequest} (h : requestOf s i = some req) :
    resultOf s i = resultOfResponse (portResponse s req) := by
  cases i <;> cases h <;> rfl

theorem resultOf_of_dividesByZero {s : State} {i : Instr} (h : dividesByZero s i) :
    resultOf s i = .error .divideByZero := by
  cases i with
  | div fa fb fc r a b => exact aluDiv_of_eq h
  | mod fa fb fc r a b => exact aluMod_of_eq h
  | _ => exact h.elim

/-- A prepared divisor of 0 and a failed request are the only faults of an instruction (R305, R306). -/
theorem resultOf_ok {s : State} {i : Instr} (hdiv : ¬ dividesByZero s i) (hport : ¬ portFails s i) :
    ∃ v, resultOf s i = .ok v := by
  cases hreq : requestOf s i with
  | some req =>
    rw [resultOf_of_requestOf hreq]
    cases hans : portResponse s req with
    | ok data => exact ⟨data, rfl⟩
    | fail => exact absurd ((portFails_iff s i).2 ⟨req, hreq, hans⟩) hport
  | none =>
    cases i with
    | div fa fb fc r a b => exact ⟨_, aluDiv_of_ne hdiv⟩
    | mod fa fb fc r a b => exact ⟨_, aluMod_of_ne hdiv⟩
    | qdc | cdc | rea | wri => cases hreq
    | _ => exact ⟨_, rfl⟩

/-- The fault `c` is the one that the instruction takes (R305, R306). -/
def Raises (s : State) (i : Instr) (c : FaultCause) : Prop :=
  (c = .divideByZero ∧ dividesByZero s i) ∨ (c = .portFault ∧ portFails s i)

theorem raises_divideByZero {s : State} {i : Instr} : Raises s i .divideByZero ↔ dividesByZero s i := by
  simp [Raises]

theorem raises_portFault {s : State} {i : Instr} : Raises s i .portFault ↔ portFails s i := by
  simp [Raises]

theorem cause_of_raises {s : State} {i : Instr} {c : FaultCause} (h : Raises s i c) :
    c = .divideByZero ∨ c = .portFault := h.imp And.left And.left

/-- The two faults exclude each other: `DIV` and `MOD` send no request (R306). -/
theorem not_portFails_of_dividesByZero {s : State} {i : Instr} (h : dividesByZero s i) : ¬ portFails s i := by
  rw [portFails_iff, requestOf_of_dividesByZero h]
  rintro ⟨req, hreq, -⟩
  cases hreq

/-- Everything an instruction can answer: its effect committed, or the fault it raises. -/
theorem exec_cases {i : Instr} {s t : State} (h : exec i s = .next t) :
    (∃ v, ¬ dividesByZero s i ∧ ¬ portFails s i ∧ t = commit (afterDraw s i) (effectOf s i v)) ∨
      ∃ c, Raises s i c ∧ t = raiseFault (afterDraw s i) c := by
  obtain rfl := Host.Outcome.next.inj (h.symm.trans (exec_eq_settle i s))
  by_cases hdiv : dividesByZero s i
  · exact .inr ⟨_, raises_divideByZero.2 hdiv, by rw [resultOf_of_dividesByZero hdiv, settle_error]⟩
  · by_cases hport : portFails s i
    · obtain ⟨req, hreq, hfail⟩ := (portFails_iff s i).1 hport
      exact .inr ⟨_, raises_portFault.2 hport, by rw [resultOf_of_requestOf hreq, hfail]; rfl⟩
    · obtain ⟨v, hv⟩ := resultOf_ok hdiv hport
      exact .inl ⟨v, hdiv, hport, by rw [hv, settle_ok]⟩

/-! The registers after an effect -/

/-- An effect writes the destination and no other register (R34). -/
theorem readReg_commit_effectOf (s₀ s : State) (i : Instr) (v : Word16) (q : RegAddr) :
    readReg (commit s₀ (effectOf s i v)) q = if destination i = some q then v else readReg s₀ q := by
  rw [readReg_commit, effectOf_wreg]
  cases destination i with
  | none => simp
  | some r => simp [eq_comm]

end Sys2Proof.Proofs.Effects
end

section
/-! The step (R130 to R137) and what it leaves in the fault record (R300 to R306). -/

namespace Sys2Proof.Proofs.Steps

open Sys2Proof.Machine Sys2Proof.Safety Sys2Proof.Proofs.Effects

/-! What is fetched -/

theorem rawAtPc_eq_wordAtPc {s : State} (hpc : s.pc.toNat ≤ 65532) : rawAtPc s = wordAtPc s := rawAtPc_of_le hpc

/-- What is fetched depends on `pc` and memory alone. -/
theorem rawAtPc_congr {s t : State} (hpc : t.pc = s.pc) (hmem : t.mem = s.mem) : rawAtPc t = rawAtPc s := by
  simp only [rawAtPc, fetch, hpc, hmem]

theorem rawAtPc_afterDraw (s : State) (i : Instr) : rawAtPc (afterDraw s i) = rawAtPc s :=
  rawAtPc_congr (afterDraw_pc s i) (afterDraw_mem s i)

/-- The word at `pc` is the word of the four bytes there (R90). -/
theorem bytesOfWord_wordAtPc (s : State) : bytesOfWord (wordAtPc s) = bytesAtPc s := bytesOfWord_wordOfBytes _ _ _ _

theorem aboutToRun_unique {s : State} {i j : Instr} (hi : AboutToRun s i) (hj : AboutToRun s j) : i = j := by
  obtain ⟨-, -, hdec⟩ := hi
  obtain ⟨-, -, hdec'⟩ := hj
  exact Except.ok.inj (hdec.symm.trans hdec')

/-! The cases of a step -/

/-- Everything the step of a Running block can do: run the fetched instruction, or take `OUT_OF_BOUNDS` (R131, R134). -/
theorem step_cases {s t : State} (hrun : s.run = .running) (hstep : step s = .next t) :
    (∃ i, AboutToRun s i ∧ exec i s = .next t) ∨ (65532 < s.pc.toNat ∧ t = raiseFault s .outOfBounds) := by
  by_cases hpc : s.pc.toNat ≤ 65532
  · obtain ⟨i, hi⟩ := Memory.exists_aboutToRun hrun hpc
    exact .inl ⟨i, hi, Memory.step_of_aboutToRun hi ▸ hstep⟩
  · have hlt := Nat.lt_of_not_le hpc
    exact .inr ⟨hlt, Host.Outcome.next.inj (hstep.symm.trans (step_outOfBounds hrun hlt))⟩

theorem exec_of_step {s t : State} {i : Instr} (h : AboutToRun s i) (hstep : step s = .next t) : exec i s = .next t :=
  Memory.step_of_aboutToRun h ▸ hstep

/-- Settles O9. -/
theorem stepRunsDecodedInstruction : Obligations.StepRunsDecodedInstruction :=
  fun _ _ h => Memory.step_of_aboutToRun h

theorem run_succ_of_next {M : Host.Core} {s s' : M.State} (h : M.step s = .next s') (n : Nat) :
    M.run (n + 1) s = M.run n s' := by
  rw [Host.Core.run, h]

/-- Settles O11, by induction on the number of steps. -/
theorem haltedBlockIgnoresSteps : Obligations.HaltedBlockIgnoresSteps := by
  intro n s hhalted
  induction n with
  | zero => rfl
  | succ n ih =>
    have hstep : Sys2Proof.core.step s = .next s := step_halted hhalted
    exact (run_succ_of_next hstep n).trans ih

/-- Settles O12: a Halted block stays, a Running one executes or takes the fetch's fault, and both answer a state. -/
theorem everyStepAnswersNext : Obligations.EveryStepAnswersNext := by
  have hexec (i : Instr) (s : State) : ∃ t, exec i s = .next t := ⟨_, exec_eq_settle i s⟩
  refine ⟨fun s => ?_, hexec⟩
  cases hrun : s.run with
  | halted => exact ⟨s, step_halted hrun⟩
  | running =>
    by_cases hpc : s.pc.toNat ≤ 65532
    · obtain ⟨i, hi⟩ := Memory.exists_aboutToRun hrun hpc
      rw [Memory.step_of_aboutToRun hi]
      exact hexec i s
    · exact ⟨_, step_outOfBounds hrun (Nat.lt_of_not_le hpc)⟩

/-! The program counter -/

/-- Settles O13. -/
theorem nextAddressWraps : Obligations.NextAddressWraps := by
  intro pc
  have hlt := pc.isLt
  rw [nextPc, BitVec.toNat_add, BitVec.toNat_ofNat]
  split_ifs <;> omega

/-- A completed instruction commits the jump's target, or the default next address; `HLT` keeps `pc` (R136, R151). -/
theorem pc_commit_effectOf (s₀ s : State) (i : Instr) (v : Word16) :
    (commit s₀ (effectOf s i v)).pc = if i = .hlt then s₀.pc else (jumpTarget s i).getD (nextPc s.pc) := by
  simp only [commit_pc, effectOf_halt, effectOf_pcNext, haltsOf_iff]

/-- Settles O14. -/
theorem stepCommitsTheProgramCounter : Obligations.StepCommitsTheProgramCounter := by
  intro s t i habout hclean hstep
  rcases exec_cases (exec_of_step habout hstep) with ⟨v, -, -, rfl⟩ | ⟨c, hc, rfl⟩
  · rw [pc_commit_effectOf, afterDraw_pc, commit_faultCause, afterDraw_faultCause]
    refine ⟨fun _ hne => if_neg hne, ?_⟩
    rintro (hfault | rfl)
    · exact absurd hclean hfault
    · rfl
  · refine ⟨fun hnone => ?_, fun _ => afterDraw_pc s i⟩
    rcases cause_of_raises hc with rfl | rfl <;> cases hnone

/-! The fault entry -/

/-- The fault entry of R304, from a state that a request has made of `s` or from `s` itself. -/
theorem takesFault_raiseFault {env : State → State → Prop} {s s₀ : State} (hregs : s₀.regs = s.regs) (hpc : s₀.pc = s.pc)
    (hmem : s₀.mem = s.mem) {c : FaultCause} {raw : Word32} (hraw : (raiseFault s₀ c).faultRaw = raw)
    (henv : env s (raiseFault s₀ c)) : TakesFault env s c raw (.next (raiseFault s₀ c)) :=
  ⟨_, rfl, rfl, rfl, hpc, hraw, hpc, readReg_congr hregs, fun addr => congrArg (Memory.read · addr) hmem, henv⟩

theorem step_takesOutOfBounds {s : State} (hrun : s.run = .running) (hpc : 65532 < s.pc.toNat) :
    TakesFault sameEnv s .outOfBounds 0#32 (step s) := by
  rw [step_outOfBounds hrun hpc]
  exact takesFault_raiseFault rfl rfl rfl rfl ⟨rfl, rfl, rfl, rfl⟩

/-- Settles O15: a fetched instruction stays below the edge unless it jumps or `pc + 4` passes it. -/
theorem outOfBoundsExactlyPastTheEdge : Obligations.OutOfBoundsExactlyPastTheEdge := by
  refine ⟨fun s hrun hpc => step_takesOutOfBounds hrun hpc, fun s t i habout hclean hstep => ?_⟩
  have hexec := exec_of_step habout hstep
  obtain ⟨-, hpc, -⟩ := habout
  rcases exec_cases hexec with ⟨v, -, -, rfl⟩ | ⟨c, hc, rfl⟩
  · rw [pc_commit_effectOf, afterDraw_pc, commit_faultCause, afterDraw_faultCause, hclean]
    refine ⟨by decide, fun hbeyond => ?_⟩
    by_cases hhlt : i = .hlt
    · rw [if_pos hhlt] at hbeyond
      omega
    · rw [if_neg hhlt] at hbeyond
      cases hjump : jumpTarget s i with
      | some target => exact .inl rfl
      | none =>
        have hnext := nextAddressWraps s.pc
        rw [hjump, Option.getD_none, hnext] at hbeyond
        split_ifs at hbeyond <;> omega
  · rw [raiseFault_faultCause, raiseFault_pc, afterDraw_pc]
    refine ⟨?_, fun hbeyond => by omega⟩
    rcases cause_of_raises hc with rfl | rfl <;> decide

/-! The outcome of a step -/

theorem stepOutcome_of_fault {s t : State} (hrun : s.run = .running) (ht : t.run = .halted)
    (hc : t.faultCause ≠ .none) : stepOutcome s t = .fault t.faultCause := by
  simp [stepOutcome, hrun, ht, hc]

theorem stepOutcome_of_halted {s t : State} (hrun : s.run = .halted) : stepOutcome s t = .halt := by
  simp [stepOutcome, hrun]

theorem stepOutcome_of_noFault {s t : State} (hrun : s.run = .running) (hc : t.faultCause = .none) :
    stepOutcome s t = if t.run = .halted then .halt else .continue := by
  cases ht : t.run <;> simp [stepOutcome, hrun, ht, hc]

theorem run_commit_effectOf (s₀ s : State) (i : Instr) (v : Word16) :
    (commit s₀ (effectOf s i v)).run = if i = .hlt then .halted else s₀.run := by
  simp only [commit_run, effectOf_halt, haltsOf_iff]

theorem raises_ne_none {s : State} {i : Instr} {c : FaultCause} (h : Raises s i c) : c ≠ .none := by
  rcases cause_of_raises h with rfl | rfl <;> decide

/-- An instruction raises one fault at most, and `HLT` none. -/
theorem raises_unique {s : State} {i : Instr} {c c' : FaultCause} (h : Raises s i c) (h' : Raises s i c') : c = c' := by
  rcases h with ⟨rfl, hdiv⟩ | ⟨rfl, hport⟩ <;> rcases h' with ⟨rfl, hdiv'⟩ | ⟨rfl, hport'⟩
  · rfl
  · exact absurd hport' (not_portFails_of_dividesByZero hdiv)
  · exact absurd hport (not_portFails_of_dividesByZero hdiv')
  · rfl

theorem not_raises_hlt (s : State) (c : FaultCause) : ¬ Raises s .hlt c := by
  rintro (⟨-, hdiv⟩ | ⟨-, hport⟩)
  · exact hdiv
  · exact hport

/-- Settles O16: the outcome is the fault the instruction raises; one that raises none halts exactly where it is `HLT`. -/
theorem stepAnswersItsOutcome : Obligations.StepAnswersItsOutcome := by
  refine ⟨fun s t i habout hclean hstep => ?_, fun s t hrun hpc hstep => ?_, fun s t hrun _ => stepOutcome_of_halted hrun⟩
  · have hexec := exec_of_step habout hstep
    obtain ⟨hrun, -, -⟩ := habout
    rcases exec_cases hexec with ⟨v, hdiv, hport, rfl⟩ | ⟨c, hc, rfl⟩
    · have hnone : (commit (afterDraw s i) (effectOf s i v)).faultCause = .none := by
        rw [commit_faultCause, afterDraw_faultCause, hclean]
      rw [stepOutcome_of_noFault hrun hnone, run_commit_effectOf, afterDraw_run, hrun]
      refine ⟨fun h => absurd h hdiv, fun h => absurd h hport, ?_, fun _ _ hne => ?_⟩
      · rintro rfl
        rfl
      · rw [if_neg hne]
        rfl
    · rw [stepOutcome_of_fault hrun rfl (raises_ne_none hc), raiseFault_faultCause]
      refine ⟨fun h => ?_, fun h => ?_, ?_, fun hdiv hport => ?_⟩
      · rw [raises_unique hc (raises_divideByZero.2 h)]
      · rw [raises_unique hc (raises_portFault.2 h)]
      · rintro rfl
        exact absurd hc (not_raises_hlt s c)
      · rcases hc with ⟨-, h⟩ | ⟨-, h⟩
        · exact absurd h hdiv
        · exact absurd h hport
  · obtain rfl := Host.Outcome.next.inj (hstep.symm.trans (step_outOfBounds hrun hpc))
    exact Memory.stepOutcome_raiseFault hrun (by decide)

/-! Which fault is recorded -/

/-- A cause that a fetched instruction can leave is recorded exactly where the instruction raises it. -/
theorem faultCause_iff_raises {s t : State} {i : Instr} (hexec : exec i s = .next t) (hclean : s.faultCause = .none)
    {c : FaultCause} (hc : c ≠ .none) : t.faultCause = c ↔ Raises s i c := by
  rcases exec_cases hexec with ⟨v, hdiv, hport, rfl⟩ | ⟨c', hc', rfl⟩
  · rw [commit_faultCause, afterDraw_faultCause, hclean]
    refine ⟨fun h => absurd h.symm hc, ?_⟩
    rintro (⟨-, h⟩ | ⟨-, h⟩)
    · exact absurd h hdiv
    · exact absurd h hport
  · rw [raiseFault_faultCause]
    constructor
    · rintro rfl
      exact hc'
    · exact fun h => raises_unique hc' h

/-- The step's form of it: any cause but the fetch's. -/
theorem step_faultCause_iff {s t : State} (hrun : s.run = .running) (hclean : s.faultCause = .none)
    (hstep : step s = .next t) {c : FaultCause} (hc : c ≠ .none) (hc' : c ≠ .outOfBounds) :
    t.faultCause = c ↔ ∃ i, AboutToRun s i ∧ Raises s i c := by
  rcases step_cases hrun hstep with ⟨i, hi, hexec⟩ | ⟨hpc, rfl⟩
  · rw [faultCause_iff_raises hexec hclean hc]
    constructor
    · exact fun h => ⟨i, hi, h⟩
    · rintro ⟨j, hj, h⟩
      rwa [aboutToRun_unique hi hj]
  · rw [raiseFault_faultCause]
    refine ⟨fun h => absurd h.symm hc', ?_⟩
    rintro ⟨j, ⟨-, hle, -⟩, -⟩
    omega

/-- A Running block that records a new cause is Halted (R304). -/
theorem run_of_new_fault {s t : State} (hstep : step s = .next t) (hnew : t.faultCause ≠ s.faultCause) :
    t.run = .halted := by
  cases hrun : s.run with
  | halted =>
    obtain rfl := Host.Outcome.next.inj (hstep.symm.trans (step_halted hrun))
    exact hrun
  | running =>
    rcases step_cases hrun hstep with ⟨i, -, hexec⟩ | ⟨-, rfl⟩
    · rcases exec_cases hexec with ⟨v, -, -, rfl⟩ | ⟨c, -, rfl⟩
      · rw [commit_faultCause, afterDraw_faultCause] at hnew
        exact absurd rfl hnew
      · rfl
    · rfl

/-- No instruction makes a Halted block run again. -/
theorem exec_keeps_halted {i : Instr} {s t : State} (hexec : exec i s = .next t) (hrun : s.run = .halted) :
    t.run = .halted := by
  rcases exec_cases hexec with ⟨v, -, -, rfl⟩ | ⟨c, -, rfl⟩
  · rw [run_commit_effectOf, afterDraw_run, hrun, ite_self]
  · rfl

/-- The block that `Create` starts: the power-on state with the image's memory (R340, R341). -/
theorem eq_of_create {image : List Byte} {s : State} (h : create image = some s) :
    image.length = 65536 ∧ s = { State.reset with mem := Memory.ofImage 0 image } := by
  rw [create] at h
  split_ifs at h with hlen
  exact ⟨hlen, (Option.some.inj h).symm⟩

/-- Settles O17. -/
theorem onlyResetAndCreateSetRunning : Obligations.OnlyResetAndCreateSetRunning := by
  refine ⟨fun s t hexec => ?_, fun s t => run_of_new_fault, fun s t hstep hrun => ?_, fun i s t => exec_keeps_halted,
    fun s => rfl, fun image s hcreate => ?_, fun s => ?_⟩
  · obtain rfl := Host.Outcome.next.inj (hexec.symm.trans (exec_hlt s))
    rfl
  · obtain rfl := Host.Outcome.next.inj (hstep.symm.trans (step_halted hrun))
    exact hrun
  · obtain ⟨-, rfl⟩ := eq_of_create hcreate
    rfl
  · cases hrun : s.run <;> simp only [statusOutputs, hrun] <;> decide

/-- The environment after a fault: as before, or with the instruction's request sent (R272). -/
theorem env_raiseFault_afterDraw {s : State} {i : Instr} {c : FaultCause} (hc : Raises s i c) :
    sameEnv s (raiseFault (afterDraw s i) c) ∨
      ∃ req, requestOf s i = some req ∧ sent req s (raiseFault (afterDraw s i) c) := by
  rcases hc with ⟨-, hdiv⟩ | ⟨-, hport⟩
  · rw [afterDraw_of_dividesByZero hdiv]
    exact .inl ⟨rfl, rfl, rfl, rfl⟩
  · obtain ⟨req, hreq, -⟩ := (portFails_iff s i).1 hport
    rw [afterDraw_of_requestOf hreq]
    exact .inr ⟨req, hreq, rfl, rfl, rfl, rfl⟩

/-- Settles O18. -/
theorem faultingStepHasNoOtherEffect : Obligations.FaultingStepHasNoOtherEffect := by
  intro s t hrun hclean hstep hfault
  rcases step_cases hrun hstep with ⟨i, hi, hexec⟩ | ⟨-, rfl⟩
  · rcases exec_cases hexec with ⟨v, -, -, rfl⟩ | ⟨c, hc, rfl⟩
    · rw [commit_faultCause, afterDraw_faultCause] at hfault
      exact absurd hclean hfault
    · refine ⟨rfl, afterDraw_pc s i, afterDraw_pc s i, readReg_afterDraw s i, fun addr => ?_, ?_⟩
      · rw [raiseFault_mem, afterDraw_mem]
      · exact (env_raiseFault_afterDraw hc).imp_right fun ⟨req, hreq, hsent⟩ => ⟨i, req, hi, hreq, hsent⟩
  · exact ⟨rfl, rfl, rfl, fun _ => rfl, fun _ => rfl, .inl ⟨rfl, rfl, rfl, rfl⟩⟩

/-- The raw word that a fetched instruction's fault records (R304). -/
theorem faultRaw_of_raises {s : State} {i : Instr} {c : FaultCause} (hpc : s.pc.toNat ≤ 65532) (hc : Raises s i c) :
    (raiseFault (afterDraw s i) c).faultRaw = wordAtPc s := by
  have hne : c ≠ .outOfBounds := by rcases cause_of_raises hc with rfl | rfl <;> decide
  rw [raiseFault_faultRaw, if_neg hne, rawAtPc_afterDraw, rawAtPc_eq_wordAtPc hpc]

/-- Settles O19. -/
theorem faultEntryRecordsTheInstruction : Obligations.FaultEntryRecordsTheInstruction := by
  intro s t i habout hclean hstep hfault
  have hexec := exec_of_step habout hstep
  obtain ⟨-, hpc, hdec⟩ := habout
  rcases exec_cases hexec with ⟨v, -, -, rfl⟩ | ⟨c, hc, rfl⟩
  · rw [commit_faultCause, afterDraw_faultCause] at hfault
    exact absurd hclean hfault
  · rw [faultRaw_of_raises hpc hc, bytesOfWord_wordAtPc]
    exact ⟨afterDraw_pc s i, rfl, hdec⟩

/-- Settles O20. -/
theorem divideByZeroExactlyWhenDivisorIsZero : Obligations.DivideByZeroExactlyWhenDivisorIsZero := by
  intro s t hrun hclean hstep
  refine ⟨?_, fun hdiv => run_of_new_fault hstep ?_⟩
  · simpa only [raises_divideByZero] using
      step_faultCause_iff hrun hclean hstep (c := .divideByZero) (by decide) (by decide)
  · rw [hdiv, hclean]
    decide

/-- What an instruction does to the environment is its draw: the effect and the fault entry leave it alone. -/
theorem port_of_exec {i : Instr} {s t : State} (hexec : exec i s = .next t) :
    t.portLog = (afterDraw s i).portLog ∧ t.portAnswers = (afterDraw s i).portAnswers := by
  rcases exec_cases hexec with ⟨v, -, -, rfl⟩ | ⟨c, -, rfl⟩
  · exact ⟨rfl, rfl⟩
  · exact ⟨rfl, rfl⟩

theorem port_afterDraw_of_none {s : State} {i : Instr} (h : requestOf s i = none) :
    (afterDraw s i).portLog = s.portLog ∧ (afterDraw s i).portAnswers = s.portAnswers := by
  rcases afterDraw_cases s i with ⟨req, hreq, -⟩ | ⟨-, hdraw⟩ | ⟨-, hdraw⟩
  · cases h.symm.trans hreq
  · rw [hdraw]; exact ⟨rfl, rfl⟩
  · rw [hdraw]; exact ⟨rfl, rfl⟩

/-- Settles O21. -/
theorem portFaultExactlyWhenPortFails : Obligations.PortFaultExactlyWhenPortFails := by
  intro s t hrun hclean hstep
  refine ⟨?_, fun hnone => ?_⟩
  · simpa only [raises_portFault] using
      step_faultCause_iff hrun hclean hstep (c := .portFault) (by decide) (by decide)
  · rcases step_cases hrun hstep with ⟨i, hi, hexec⟩ | ⟨-, rfl⟩
    · obtain ⟨hlog, hanswers⟩ := port_of_exec hexec
      rw [hlog, hanswers]
      exact port_afterDraw_of_none (hnone i hi)
    · exact ⟨rfl, rfl⟩

/-- Settles O22. -/
theorem requestsReachThePortInOrder : Obligations.RequestsReachThePortInOrder := by
  intro s t i habout hstep
  obtain ⟨hlog, -⟩ := port_of_exec (exec_of_step habout hstep)
  rw [hlog, afterDraw_portLog]

end Sys2Proof.Proofs.Steps
end

section
/-! Whole-machine frames (R31, R34, R40, R67): what an instruction writes, and what it depends on. -/

namespace Sys2Proof.Proofs.Frames

open Sys2Proof.Machine Sys2Proof.Safety Sys2Proof.Proofs.Effects

/-! What is written -/

/-- Settles O29. -/
theorem onlyTheDestinationIsWritten : Obligations.OnlyTheDestinationIsWritten := by
  intro i s t hexec
  rcases exec_cases hexec with ⟨v, -, -, rfl⟩ | ⟨c, -, rfl⟩
  · refine ⟨fun q hq => ?_, fun hclean hfault => ?_⟩
    · rw [readReg_commit_effectOf, if_neg hq, readReg_afterDraw]
    · rw [commit_faultCause, afterDraw_faultCause] at hfault
      exact absurd hclean hfault
  · exact ⟨fun q _ => readReg_afterDraw s i q, fun _ _ => readReg_afterDraw s i⟩

/-- Settles O31. -/
theorem onlySavWritesMemory : Obligations.OnlySavWritesMemory := by
  intro i s t hexec hne addr
  rcases exec_cases hexec with ⟨v, -, -, rfl⟩ | ⟨c, -, rfl⟩
  · rw [commit_mem, effectOf_wmem, storeOf_of_ne_sav hne, commitMem_none, afterDraw_mem]
  · rw [raiseFault_mem, afterDraw_mem]

/-! What is read -/

/-- Two states that an instruction cannot tell apart: alike in its sources, `pc`, memory and the environment. -/
structure AgreeFor (i : Instr) (s s' : State) : Prop where
  sources : ∀ q ∈ sources i, readReg s' q = readReg s q
  pc : s'.pc = s.pc
  mem : s'.mem = s.mem
  env : sameEnv s s'

theorem sameEnv_sendRequest {s s' : State} (h : sameEnv s s') (req : PortRequest) :
    sameEnv (sendRequest s req) (sendRequest s' req) := by
  obtain ⟨hlog, hanswers, hqop, hdraws⟩ := h
  exact ⟨by simp [hlog], by simp [hanswers], hqop, by simp [hdraws]⟩

theorem sameEnv_drawQop {s s' : State} (h : sameEnv s s') : sameEnv (drawQop s) (drawQop s') := by
  obtain ⟨hlog, hanswers, hqop, hdraws⟩ := h
  exact ⟨hlog, hanswers, by simp [hqop], by simp [hdraws]⟩

section
variable {i : Instr} {s s' : State} (h : AgreeFor i s s')
include h

/-! The environment's answers -/

theorem portResponse_congr (req : PortRequest) : portResponse s' req = portResponse s req := by
  obtain ⟨hlog, hanswers, -, hdraws⟩ := h.env
  simp only [portResponse, hlog, hanswers, hdraws]

theorem qopValue_congr (fa fb fc : Bool) : qopValue s' fa fb fc = qopValue s fa fb fc := by
  obtain ⟨-, -, hqop, hdraws⟩ := h.env
  simp only [qopValue, hqop, hdraws]

/-! The parts of the form read registers only through the sources. -/

theorem requestOf_of_agreeFor : requestOf s' i = requestOf s i := by
  have hread := h.sources
  cases i with
  | qdc | cdc | rea | wri => simp_all [Safety.sources, requestOf]
  | _ => rfl

theorem jumpTarget_congr : jumpTarget s' i = jumpTarget s i := by
  have hread := h.sources
  cases i with
  | jmp | bra => simp_all [Safety.sources, jumpTarget]
  | _ => rfl

theorem storeOf_congr : storeOf s' i = storeOf s i := by
  have hread := h.sources
  cases i with
  | sav => simp_all [Safety.sources, storeOf]
  | _ => rfl

theorem effectOf_congr (v : Word16) : effectOf s' i v = effectOf s i v := by
  rw [effectOf, effectOf, storeOf_congr h, jumpTarget_congr h, h.pc]

theorem resultOf_congr : resultOf s' i = resultOf s i := by
  have hread := h.sources
  have hport := portResponse_congr h
  cases hreq : requestOf s i with
  | some req => rw [resultOf_of_requestOf hreq, resultOf_of_requestOf ((requestOf_of_agreeFor h).trans hreq), hport]
  | none =>
    cases i with
    | qop fa fb fc r => exact congrArg Except.ok (qopValue_congr h fa fb fc)
    | lod => have hmem := h.mem; simp_all [Safety.sources, resultOf]
    | qdc | cdc | rea | wri => cases hreq
    | nop | jmp | bra | hlt | sav | set => rfl
    | _ => simp_all [Safety.sources, resultOf]

/-- The draw keeps the environments alike. -/
theorem sameEnv_afterDraw : sameEnv (afterDraw s i) (afterDraw s' i) := by
  cases hreq : requestOf s i with
  | some req =>
    rw [afterDraw_of_requestOf hreq, afterDraw_of_requestOf ((requestOf_of_agreeFor h).trans hreq)]
    exact sameEnv_sendRequest h.env req
  | none =>
    cases i with
    | qop fa fb fc r => exact sameEnv_drawQop h.env
    | qdc | cdc | rea | wri => cases hreq
    | _ => exact h.env

/-- Both runs settle the same result of the same effect, each from its own state. -/
theorem exec_of_agreeFor : exec i s' = .next (settle (afterDraw s' i) s i (resultOf s i)) := by
  rw [exec_eq_settle, resultOf_congr h]
  cases resultOf s i with
  | ok v => rw [settle_ok, settle_ok, effectOf_congr h]
  | error c => rw [settle_error, settle_error]

end

section
variable {s₀ s₀' : State} (s : State) (i : Instr) (res : AluResult)

theorem settle_pc (hpc : s₀'.pc = s₀.pc) : (settle s₀' s i res).pc = (settle s₀ s i res).pc := by
  cases res with
  | ok v => rw [settle_ok, settle_ok, commit_pc, commit_pc, hpc]
  | error c => exact hpc

theorem settle_mem (hmem : s₀'.mem = s₀.mem) : (settle s₀' s i res).mem = (settle s₀ s i res).mem := by
  cases res with
  | ok v => rw [settle_ok, settle_ok, commit_mem, commit_mem, hmem]
  | error c => exact hmem

theorem settle_regs (hregs : s₀'.regs = s₀.regs) : (settle s₀' s i res).regs = (settle s₀ s i res).regs := by
  cases res with
  | ok v => rw [settle_ok, settle_ok, commit_regs, commit_regs, hregs]
  | error c => exact hregs

theorem settle_sameEnv (henv : sameEnv s₀ s₀') : sameEnv (settle s₀ s i res) (settle s₀' s i res) := by
  cases res with
  | ok v => exact henv
  | error c => exact henv

theorem settle_sameStatus (hpc : s₀'.pc = s₀.pc) (hmem : s₀'.mem = s₀.mem) (hstatus : sameStatus s₀ s₀') :
    sameStatus (settle s₀ s i res) (settle s₀' s i res) := by
  cases res with
  | ok v =>
    obtain ⟨hrun, hrecord⟩ := hstatus
    exact ⟨by rw [settle_ok, settle_ok, commit_run, commit_run, hrun], hrecord⟩
  | error c =>
    refine ⟨rfl, rfl, hpc, ?_⟩
    rw [settle_error, settle_error, raiseFault_faultRaw, raiseFault_faultRaw, Steps.rawAtPc_congr hpc hmem]

/-- A register after the two runs: the destination holds what both compute, unless both fault; any other is kept. -/
theorem readReg_settle (q : RegAddr) :
    (destination i = some q ∧ readReg (settle s₀' s i res) q = readReg (settle s₀ s i res) q) ∨
      (readReg (settle s₀ s i res) q = readReg s₀ q ∧ readReg (settle s₀' s i res) q = readReg s₀' q) := by
  cases res with
  | ok v =>
    rw [settle_ok, settle_ok, readReg_commit_effectOf, readReg_commit_effectOf]
    by_cases hq : destination i = some q
    · rw [if_pos hq, if_pos hq]
      exact .inl ⟨hq, rfl⟩
    · rw [if_neg hq, if_neg hq]
      exact .inr ⟨rfl, rfl⟩
  | error c => exact .inr ⟨rfl, rfl⟩

end

/-- A register that is no source of an instruction can hold anything. -/
theorem agreeFor_writeReg {i : Instr} (s : State) {q : RegAddr} (v : Word16) (hq : q ∉ sources i) :
    AgreeFor i s (writeReg s q v) where
  sources p hp := by
    rw [readReg_writeReg, if_neg]
    rintro rfl
    exact hq hp
  pc := rfl
  mem := rfl
  env := ⟨rfl, rfl, rfl, rfl⟩

/-- Settles O30: both runs settle the same result, from states that differ in `x[q]` alone. -/
theorem onlyTheSourcesAreRead : Obligations.OnlyTheSourcesAreRead := by
  intro i s q v hq
  have hagree := agreeFor_writeReg s v hq
  have hpc : (afterDraw (writeReg s q v) i).pc = (afterDraw s i).pc := by simp
  have hmem : (afterDraw (writeReg s q v) i).mem = (afterDraw s i).mem := by simp
  have hstatus : sameStatus (afterDraw s i) (afterDraw (writeReg s q v) i) := by simp [sameStatus]
  have hreg (p : RegAddr) := readReg_settle (s₀ := afterDraw s i) (s₀' := afterDraw (writeReg s q v) i) s i (resultOf s i) p
  simp only [readReg_afterDraw, readReg_writeReg] at hreg
  refine ⟨_, _, exec_eq_settle i s, exec_of_agreeFor hagree, settle_pc s i _ hpc, fun p hp => ?_, fun addr => ?_,
    settle_sameStatus s i _ hpc hmem hstatus, settle_sameEnv s i _ (sameEnv_afterDraw hagree), fun hdest => ?_, fun _ => ?_⟩
  · rcases hreg p with ⟨-, h⟩ | ⟨h, h'⟩
    · exact h
    · rw [h, h', if_neg hp]
  · rw [settle_mem s i _ hmem]
  · rcases hreg q with ⟨hq', -⟩ | ⟨-, h'⟩
    · exact absurd hq' hdest
    · rw [h', if_pos rfl]
  · rcases hreg q with ⟨-, h⟩ | ⟨h, h'⟩
    · exact .inl h
    · exact .inr ⟨h, by rw [h', if_pos rfl]⟩

/-- Settles O32: the run state and the record are none of the things two runs must agree on. -/
theorem runStateAndRecordAreUnobservable : Obligations.RunStateAndRecordAreUnobservable := by
  intro i s s' hregs hpc hmem henv
  have hagree : AgreeFor i s s' := ⟨fun q _ => readReg_congr hregs q, hpc, hmem, henv⟩
  refine ⟨_, _, exec_eq_settle i s, exec_of_agreeFor hagree, settle_regs s i _ ?_, settle_pc s i _ ?_, settle_mem s i _ ?_,
    settle_sameEnv s i _ (sameEnv_afterDraw hagree)⟩
  · rw [afterDraw_regs, afterDraw_regs, hregs]
  · rw [afterDraw_pc, afterDraw_pc, hpc]
  · rw [afterDraw_mem, afterDraw_mem, hmem]

end Sys2Proof.Proofs.Frames
end

section
/-! Power-on, `Reset` and the invariant (R304, R309, R340 to R345). -/

namespace Sys2Proof.Proofs.Invariant

open Sys2Proof.Machine Sys2Proof.Safety Sys2Proof.Proofs.Effects

/-! Power-on and `Reset` -/

theorem readReg_of_zeroed {s : State} (h : s.regs = Vector.replicate 256 0#16) (q : RegAddr) : readReg s q = 0#16 := by
  rw [readReg_eq]
  simp [h]

/-- Settles O23. -/
theorem resetKeepsMemoryAndClearsTheRest : Obligations.ResetKeepsMemoryAndClearsTheRest := fun s =>
  ⟨readReg_of_zeroed (applyReset_regs s), rfl, rfl, rfl, rfl, rfl, fun _ => rfl, rfl, rfl, rfl, rfl⟩

/-- Settles O24. -/
theorem resetStateIsZeroed : Obligations.ResetStateIsZeroed :=
  ⟨readReg_of_zeroed rfl, Memory.read_nil, rfl, rfl, rfl, rfl, rfl⟩

/-- An image fills memory byte for byte (R341). -/
theorem read_ofImage (image : List Byte) {addr : Nat} (hlen : addr + image.length ≤ 65536) {k : Nat}
    (hk : k < image.length) : (Memory.ofImage addr image).read (addr + k) = image[k] := by
  induction image generalizing addr k with
  | nil => exact absurd hk (Nat.not_lt_zero k)
  | cons b bs ih =>
    rw [List.length_cons] at hlen hk
    have hrest : Memory.wfFrom (addr + 1) (Memory.ofImage (addr + 1) bs) = true := Memory.wfFrom_ofImage bs (by omega)
    cases k with
    | zero =>
      rw [Memory.ofImage]
      split_ifs with hb
      · exact (Memory.read_below hrest (Nat.lt_succ_self addr)).trans hb.symm
      · exact if_pos rfl
    | succ k =>
      have htail := ih (addr := addr + 1) (by omega) (Nat.lt_of_succ_lt_succ hk)
      rw [show addr + (k + 1) = addr + 1 + k by omega, List.getElem_cons_succ, ← htail, Memory.ofImage]
      split_ifs
      · rfl
      · exact if_neg (by omega)

theorem wf_ofImage {image : List Byte} (h : image.length = 65536) : (Memory.ofImage 0 image).wf = true :=
  Memory.wfFrom_ofImage image (by omega)

/-- Settles O25. -/
theorem createLoadsTheImage : Obligations.CreateLoadsTheImage := by
  refine fun image => ⟨fun hlen => ?_, fun hlen => if_neg hlen⟩
  refine ⟨_, if_pos hlen, wf_ofImage hlen, fun addr haddr => ?_, readReg_of_zeroed rfl, rfl, rfl, rfl, rfl, rfl⟩
  have hread := read_ofImage image (addr := 0) (by omega) haddr
  rwa [Nat.zero_add] at hread

/-! The invariant -/

/-- With no fault recorded, canonical memory and a clear record are all that the invariant asks. -/
theorem inv_of_noFault {s : State} (hmem : s.mem.wf = true) (hcause : s.faultCause = .none) (hpc : s.faultPc = 0#16)
    (hraw : s.faultRaw = 0#32) : Inv s where
  memWf := hmem
  faultHalts h := absurd hcause h
  clearRecord _ := ⟨hpc, hraw⟩
  noDecodeError := by rw [hcause]; decide
  outOfBounds h := by rw [hcause] at h; cases h
  divideByZero h := by rw [hcause] at h; cases h
  portFault h := by rw [hcause] at h; cases h

/-- Settles O26. -/
theorem invHoldsAtReset : Obligations.InvHoldsAtReset := inv_of_noFault rfl rfl rfl rfl

/-- A Running block that meets the invariant has recorded no fault (R304). -/
theorem noFault_of_running {s : State} (hinv : Inv s) (hrun : s.run = .running) : s.faultCause = .none := by
  by_contra hfault
  obtain ⟨hhalted, -⟩ := hinv.faultHalts hfault
  rw [hrun] at hhalted
  cases hhalted

/-- The fetch's fault (R302): `pc` is kept, so it still stands past the edge. -/
theorem inv_raise_outOfBounds {s : State} (hmem : s.mem.wf = true) (hpc : 65532 < s.pc.toNat) :
    Inv (raiseFault s .outOfBounds) where
  memWf := hmem
  faultHalts _ := ⟨rfl, rfl⟩
  clearRecord h := by cases h
  noDecodeError h := by cases h
  outOfBounds _ := ⟨hpc, rfl⟩
  divideByZero h := by cases h
  portFault h := by cases h

/-- The fault of a fetched instruction (R303, R305, R306): registers, `pc` and memory are kept, so the instruction still
stands there with the operands or the request that made it fault. -/
theorem inv_raise_of_raises {s : State} {i : Instr} {c : FaultCause} (hmem : s.mem.wf = true) (habout : AboutToRun s i)
    (hc : Raises s i c) : Inv (raiseFault (afterDraw s i) c) := by
  obtain ⟨-, hpc, hdec⟩ := habout
  have hregs : (raiseFault (afterDraw s i) c).regs = s.regs := afterDraw_regs s i
  have hbytes : bytesAtPc (raiseFault (afterDraw s i) c) = bytesAtPc s := by simp [bytesAtPc]
  have hword : wordAtPc (raiseFault (afterDraw s i) c) = wordAtPc s := by simp [wordAtPc]
  have hraw := Steps.faultRaw_of_raises hpc hc
  rw [← hword] at hraw
  rw [← hbytes] at hdec
  rw [← afterDraw_pc s i] at hpc
  exact
    { memWf := by rw [raiseFault_mem, afterDraw_mem, hmem]
      faultHalts := fun _ => ⟨rfl, rfl⟩
      clearRecord := fun h => absurd h (Steps.raises_ne_none hc)
      noDecodeError := fun h => by rcases cause_of_raises hc with rfl | rfl <;> cases h
      outOfBounds := fun h => by rcases cause_of_raises hc with rfl | rfl <;> cases h
      divideByZero := by
        rintro rfl
        refine ⟨hpc, hraw, i, hdec, ?_⟩
        rw [dividesByZero_congr hregs]
        exact raises_divideByZero.1 hc
      portFault := by
        rintro rfl
        obtain ⟨req, hreq, -⟩ := (portFails_iff s i).1 (raises_portFault.1 hc)
        refine ⟨hpc, hraw, i, req, hdec, ?_, ?_⟩
        · rw [requestOf_congr hregs, hreq]
        · rw [raiseFault_portLog, afterDraw_portLog, hreq]
          rfl }

/-- Settles O27: a Halted block stays as it is; a Running one has a clear record, which its step keeps or fills truly. -/
theorem stepKeepsInv : Obligations.StepKeepsInv := by
  intro s t hinv hstep
  cases hrun : s.run with
  | halted =>
    obtain rfl := Host.Outcome.next.inj (hstep.symm.trans (step_halted hrun))
    exact hinv
  | running =>
    have hclean := noFault_of_running hinv hrun
    obtain ⟨hfaultPc, hfaultRaw⟩ := hinv.clearRecord hclean
    rcases Steps.step_cases hrun hstep with ⟨i, habout, hexec⟩ | ⟨hpc, rfl⟩
    · rcases exec_cases hexec with ⟨v, -, -, rfl⟩ | ⟨c, hc, rfl⟩
      · refine inv_of_noFault (commitMem_wf ?_ _) ?_ ?_ ?_
        · rw [afterDraw_mem, hinv.memWf]
        · rw [commit_faultCause, afterDraw_faultCause, hclean]
        · rw [commit_faultPc, afterDraw_faultPc, hfaultPc]
        · rw [commit_faultRaw, afterDraw_faultRaw, hfaultRaw]
      · exact inv_raise_of_raises hinv.memWf habout hc
    · exact inv_raise_outOfBounds hinv.memWf hpc

theorem inv_applyReset {s : State} (h : Inv s) : Inv (applyReset s) := inv_of_noFault h.memWf rfl rfl rfl

theorem inv_of_create {image : List Byte} {s : State} (h : create image = some s) : Inv s := by
  obtain ⟨hlen, rfl⟩ := Steps.eq_of_create h
  exact inv_of_noFault (wf_ofImage hlen) rfl rfl rfl

theorem applyOp_step {s t : State} (h : step s = .next t) : applyOp (some s) .step = some t := by
  simp only [applyOp, Option.map_some, h]

/-- Settles O28. -/
theorem boundaryOperationsKeepInv : Obligations.BoundaryOperationsKeepInv := by
  intro block op t hblock happly
  cases op with
  | create image => exact inv_of_create happly
  | destroy => cases happly
  | reset =>
    cases block with
    | none => cases happly
    | some s =>
      obtain rfl := Option.some.inj happly
      exact inv_applyReset (hblock s rfl)
  | step =>
    cases block with
    | none => cases happly
    | some s =>
      obtain ⟨allSteps, -⟩ := Steps.everyStepAnswersNext
      obtain ⟨t', hstep⟩ := allSteps s
      obtain rfl := Option.some.inj ((applyOp_step hstep).symm.trans happly)
      exact stepKeepsInv s t' (hblock s rfl) hstep

end Sys2Proof.Proofs.Invariant
end

section
/-! Encodings (R97 to R104): every instruction from its own bytes, words up to their don't-care bits, and `STRICT_FLAGS`. -/

namespace Sys2Proof.Proofs.Words

open Sys2Proof.Machine Sys2Proof.Safety

/-! Every instruction from its own bytes -/

/-- An instruction's constructor has no field that its shape lacks (R94). -/
theorem instr_wellFormed (i : Instr) : i.wellFormed = true := by
  cases i <;> simp [Instr.wellFormed, Record.normalized, recordOfInstr, presence, presenceOfShape, shapeOf, flagOk, fieldOk]

theorem decode_of_decodeRecord {raw0 raw1 raw2 raw3 : Byte} {rec : Record}
    (h : decodeRecord raw0 raw1 raw2 raw3 = .ok rec) : decode [raw0, raw1, raw2, raw3] = .ok (instrOfRecord rec) := by
  rw [decode, h]
  rfl

theorem decode_encode (i : Instr) : decode (encode i) = .ok i := by
  obtain ⟨raw0, raw1, raw2, raw3, hbytes, hrec⟩ := Encoding.decodeRecord_encodeRecord (instr_wellFormed i)
  rw [encode, hbytes, decode_of_decodeRecord hrec, instrOfRecord_recordOfInstr]

theorem encode_injective {i j : Instr} (h : encode i = encode j) : i = j := by
  have hdec := decode_encode i
  rw [h, decode_encode] at hdec
  exact (Except.ok.inj hdec).symm

/-- Settles O2: the first law of R104 at the record of the instruction, which is normalized. -/
theorem everyInstrDecodesFromItsEncoding : Obligations.EveryInstrDecodesFromItsEncoding := by
  intro i
  obtain ⟨hwf, raw0, raw1, raw2, raw3, hbytes, -⟩ := Laws.Encoding.statement_of_wellFormed (instr_wellFormed i)
  exact ⟨hwf, by rw [hbytes]; rfl, decode_encode i⟩

/-- Settles O6. -/
theorem workedWordsDecode : Obligations.WorkedWordsDecode :=
  ⟨rfl, rfl, rfl, rfl, rfl, rfl, rfl, rfl, rfl⟩

/-! Words and their don't-care bits -/

/-- The opcode's five bits are the top five of the word (R91). -/
theorem opcodeField_byte0 (w : Word32) : opcodeField (w.extractLsb' 24 8) = w.extractLsb' 27 5 := by
  refine BitVec.eq_of_getLsbD_eq fun k hk => ?_
  rw [opcodeField, BitVec.getLsbD_extractLsb', BitVec.getLsbD_extractLsb', BitVec.getLsbD_extractLsb']
  simp [hk, show 3 + k < 8 by omega, show 24 + (3 + k) = 27 + k by omega]

/-- What a decoded word is: the fields of its opcode, the five top bits naming it. -/
theorem decode_bytesOfWord {w : Word32} {i : Instr} (h : decode (bytesOfWord w) = .ok i) :
    opcodeField (w.extractLsb' 24 8) = (opcodeOf i).code ∧
      i = instrOfRecord (decodeFields (opcodeOf i) (w.extractLsb' 24 8) (w.extractLsb' 16 8) (w.extractLsb' 8 8)
        (w.extractLsb' 0 8)) := by
  obtain ⟨op, hop, hcode⟩ := Encoding.exists_opcode (w.extractLsb' 24 8)
  rw [bytesOfWord, Memory.decode_of_opcode hop] at h
  obtain rfl := Except.ok.inj h
  rw [Encoding.opcodeOf_instrOfRecord]
  exact ⟨hcode, rfl⟩

/-- Encoding a decoded instruction gives its word with the don't-care bits cleared (the second law of R104). -/
theorem encode_of_decode {w : Word32} {i : Instr} (h : decode (bytesOfWord w) = .ok i) :
    encode i = bytesOfWord (w &&& careMask (shapeOf (opcodeOf i))) := by
  obtain ⟨hcode, hi⟩ := decode_bytesOfWord h
  have hword : w &&& careMask (shapeOf (opcodeOf i)) = _ :=
    (congrArg (· &&& careMask (shapeOf (opcodeOf i))) (wordOfBytes_bytesOfWord w)).symm
  rw [hword, Encoding.careMask_eq, Encoding.wordOfBytes_and, bytesOfWord_wordOfBytes, ← Encoding.encodeRecord_decodeFields hcode,
    encode, ← Encoding.recordOfInstr_decodeFields, ← hi]

/-- No shape marks an opcode bit `x` (R97). -/
theorem careMask_opcode_bit (shape : Shape) {k : Nat} (hk : k < 5) : (careMask shape).getLsbD (27 + k) = true := by
  cases shape <;> interval_cases k <;> rfl

theorem opcodeField_of_masked_eq {w w' : Word32} {shape : Shape} (h : w &&& careMask shape = w' &&& careMask shape) :
    opcodeField (w.extractLsb' 24 8) = opcodeField (w'.extractLsb' 24 8) := by
  rw [opcodeField_byte0, opcodeField_byte0]
  refine BitVec.eq_of_getLsbD_eq fun k hk => ?_
  have hbit := congrArg (BitVec.getLsbD · (27 + k)) h
  simpa [careMask_opcode_bit shape hk, hk] using hbit

theorem code_injective {op op' : Opcode} (h : op.code = op'.code) : op = op' := by
  have hop := opcodeOfNat_code op
  rw [h, opcodeOfNat_code] at hop
  exact (Option.some.inj hop).symm

/-- Settles O5: the two words name one opcode, so their instructions have one encoding. -/
theorem dontCareBitsDoNotChangeDecode : Obligations.DontCareBitsDoNotChangeDecode := by
  intro w w' i hdec hmask
  obtain ⟨i', hdec'⟩ : ∃ i', decode (bytesOfWord w') = .ok i' := Memory.decode_four_ok _ _ _ _
  have hop : opcodeOf i' = opcodeOf i := by
    obtain ⟨hcode, -⟩ := decode_bytesOfWord hdec
    obtain ⟨hcode', -⟩ := decode_bytesOfWord hdec'
    exact code_injective (by rw [← hcode, ← hcode', opcodeField_of_masked_eq hmask])
  have henc : encode i' = encode i := by rw [encode_of_decode hdec', encode_of_decode hdec, hop, hmask]
  rw [hdec', encode_injective henc]

/-! `STRICT_FLAGS` -/

theorem bytesOfWord_injective {w w' : Word32} (h : bytesOfWord w = bytesOfWord w') : w = w' := by
  simp only [bytesOfWord, List.cons.injEq, and_true] at h
  obtain ⟨h0, h1, h2, h3⟩ := h
  rw [← wordOfBytes_bytesOfWord w, ← wordOfBytes_bytesOfWord w', h0, h1, h2, h3]

/-- A word has no bit outside a mask exactly when the mask keeps it whole. -/
theorem and_not_eq_zero_iff (w mask : Word32) : w &&& ~~~ mask = 0#32 ↔ w &&& mask = w := by
  constructor
  · intro h
    calc w &&& mask = w &&& mask ||| w &&& ~~~ mask := by rw [h, BitVec.or_zero]
      _ = w &&& (mask ||| ~~~ mask) := BitVec.and_or_distrib_left.symm
      _ = w := by rw [BitVec.or_not_self, BitVec.and_allOnes]
  · intro h
    rw [← h, BitVec.and_assoc, BitVec.and_not_self]
    exact BitVec.and_zero

theorem strictFlagsOk_iff {w : Word32} {op : Opcode} (h : opcodeField (w.extractLsb' 24 8) = op.code) :
    strictFlagsOk w = true ↔ w &&& careMask (shapeOf op) = w ∧ w &&& ignoredFlags op = 0#32 := by
  rw [strictFlagsOk, ← opcodeField_byte0, h, opcodeOfNat_code, beq_iff_eq, BitVec.and_or_distrib_left,
    BitVec.or_eq_zero_iff, and_not_eq_zero_iff]

/-- A mask with bits in byte 0 alone tests byte 0 alone. -/
theorem and_byte0_eq_zero_iff (w : Word32) (m : Byte) :
    w &&& wordOfBytes m 0#8 0#8 0#8 = 0#32 ↔ w.extractLsb' 24 8 &&& m = 0#8 := by
  have hsplit : w &&& wordOfBytes m 0#8 0#8 0#8 = wordOfBytes (w.extractLsb' 24 8 &&& m) 0#8 0#8 0#8 := by
    conv_lhs => rw [← wordOfBytes_bytesOfWord w, Encoding.wordOfBytes_and]
    simp
  rw [hsplit]
  constructor
  · intro h
    have hbytes := congrArg bytesOfWord h
    rw [bytesOfWord_wordOfBytes] at hbytes
    exact (List.cons.inj hbytes).1
  · intro h
    rw [h]
    rfl

/-! The masks of D7 in byte 0: flags `B` and `C`, `B` alone, `A` alone, `A` and `B`. -/

theorem and_flagsBC (raw0 : Byte) : raw0 &&& 0x03#8 = 0#8 ↔ rawFlagB raw0 = false ∧ rawFlagC raw0 = false := by
  revert raw0
  decide

theorem and_flagB (raw0 : Byte) : raw0 &&& 0x02#8 = 0#8 ↔ rawFlagB raw0 = false := by
  revert raw0
  decide

theorem and_flagA (raw0 : Byte) : raw0 &&& 0x04#8 = 0#8 ↔ rawFlagA raw0 = false := by
  revert raw0
  decide

theorem and_flagsAB (raw0 : Byte) : raw0 &&& 0x06#8 = 0#8 ↔ rawFlagA raw0 = false ∧ rawFlagB raw0 = false := by
  revert raw0
  decide

/-- The mask of D7 is clear in a word exactly when the decoded instruction has the flags of D7 clear (R101). -/
theorem ignoredFlags_clear_iff (w : Word32) (op : Opcode) (raw1 raw2 raw3 : Byte) :
    w &&& ignoredFlags op = 0#32 ↔
      ignoredFlagsClear (instrOfRecord (decodeFields op (w.extractLsb' 24 8) raw1 raw2 raw3)) := by
  cases op with
  | equ | neq | gtn | ltn | add | sub | mlt | div | mod | eor | and | xor | lsh | rsh =>
    exact (and_byte0_eq_zero_iff w 0x03#8).trans (and_flagsBC _)
  | cas | inc | dec | not | rot => exact (and_byte0_eq_zero_iff w 0x02#8).trans (and_flagB _)
  | set => exact (and_byte0_eq_zero_iff w 0x04#8).trans (and_flagA _)
  | cop | lod | sav => exact (and_byte0_eq_zero_iff w 0x06#8).trans (and_flagsAB _)
  | nop | jmp | bra | hlt | qop | qdc | cdc | rea | wri => exact iff_of_true BitVec.and_zero trivial

theorem stepStrict_running {s : State} (hrun : s.run = .running) (hpc : s.pc.toNat ≤ 65532) :
    stepStrict s = if strictFlagsOk (wordAtPc s) then step s else .refused (.strictFlags (wordAtPc s)) := by
  rw [stepStrict, hrun, Memory.fetch_eq_bytesAtPc hpc]
  rfl

theorem stepStrict_halted {s : State} (hrun : s.run = .halted) : stepStrict s = step s := by
  rw [stepStrict, hrun]

theorem stepStrict_outOfBounds {s : State} (hpc : 65532 < s.pc.toNat) : stepStrict s = step s := by
  rw [stepStrict, fetch_of_lt hpc]
  cases s.run <;> rfl

/-- Settles O8: the test is read per opcode, the don't-care bits by the word's own encoding, the flags in byte 0. -/
theorem strictStepRefusesOnlyMarkedWords : Obligations.StrictStepRefusesOnlyMarkedWords := by
  refine ⟨fun s hrun hpc hbad => ?_, fun s hpass => ?_, fun w i hdec => ?_⟩
  · rw [stepStrict_running hrun hpc, hbad]
    rfl
  · cases hrun : s.run with
    | halted => exact stepStrict_halted hrun
    | running =>
      by_cases hpc : s.pc.toNat ≤ 65532
      · rcases hpass with hhalted | hbeyond | hok
        · rw [hrun] at hhalted
          cases hhalted
        · omega
        · rw [stepStrict_running hrun hpc, if_pos hok]
      · exact stepStrict_outOfBounds (Nat.lt_of_not_le hpc)
  · obtain ⟨hcode, hi⟩ := decode_bytesOfWord hdec
    rw [strictFlagsOk_iff hcode, encode_of_decode hdec, ignoredFlags_clear_iff w _ (w.extractLsb' 16 8) (w.extractLsb' 8 8)
      (w.extractLsb' 0 8), ← hi]
    exact and_congr_left' ⟨congrArg bytesOfWord, bytesOfWord_injective⟩

end Sys2Proof.Proofs.Words
end

section
/-! Memory (R60, R61) and the instructions that reach it (R253 to R256), and the next fetch after a store (R71). -/

namespace Sys2Proof.Proofs.Access

open Sys2Proof.Machine Sys2Proof.Safety

/-! The access primitives -/

theorem memRead_length (m : Memory) (addr n : Nat) : (memRead m addr n).length = n := by
  induction n generalizing addr with
  | zero => rfl
  | succ n ih => rw [memRead, List.length_cons, ih]

theorem memRead_getElem? (m : Memory) (addr : Nat) {n k : Nat} (hk : k < n) :
    (memRead m addr n)[k]? = some (m.read (addr + k)) := by
  induction n generalizing addr k with
  | zero => exact absurd hk (Nat.not_lt_zero k)
  | succ n ih =>
    cases k with
    | zero => rfl
    | succ k =>
      rw [memRead, List.getElem?_cons_succ, ih (addr + 1) (Nat.lt_of_succ_lt_succ hk)]
      exact congrArg (fun a => some (m.read a)) (by omega)

/-- A read after a write, on canonical memory. -/
theorem read_write {m : Memory} (hm : m.wf = true) (addr addr' : Nat) (v : Byte) :
    (m.write addr v).read addr' = if addr' = addr then v else m.read addr' := Memory.read_write (lo := 0) hm addr addr' v

theorem memWrite_read_outside (raw : List Byte) {m : Memory} (hm : m.wf = true) {addr other : Nat}
    (hlen : addr + raw.length ≤ 65536) (hout : other < addr ∨ addr + raw.length ≤ other) :
    (memWrite m addr raw).read other = m.read other := by
  induction raw generalizing m addr with
  | nil => rfl
  | cons b bs ih =>
    rw [List.length_cons] at hlen hout
    rw [memWrite, ih (Memory.wf_write hm (by omega) b) (by omega) (by omega), read_write hm, if_neg (by omega)]

theorem memWrite_read_inside (raw : List Byte) {m : Memory} (hm : m.wf = true) {addr : Nat}
    (hlen : addr + raw.length ≤ 65536) {k : Nat} (hk : k < raw.length) :
    (memWrite m addr raw).read (addr + k) = raw[k] := by
  induction raw generalizing m addr k with
  | nil => exact absurd hk (Nat.not_lt_zero k)
  | cons b bs ih =>
    rw [List.length_cons] at hlen hk
    have hwf := Memory.wf_write hm (addr := addr) (by omega) b
    rw [memWrite]
    cases k with
    | zero => rw [memWrite_read_outside bs hwf (by omega) (by omega), read_write hm,
        if_pos (Nat.add_zero addr), List.getElem_cons_zero]
    | succ k =>
      rw [show addr + (k + 1) = addr + 1 + k by omega, List.getElem_cons_succ]
      exact ih hwf (by omega) (Nat.lt_of_succ_lt_succ hk)

/-- The four bytes of a word, the first most significant (R60, R90). -/
theorem wordOfBytes_toNat (a b c d : Byte) :
    (wordOfBytes a b c d).toNat = a.toNat * 2 ^ 24 + b.toNat * 2 ^ 16 + c.toNat * 2 ^ 8 + d.toNat := by
  have hb := b.isLt
  have hc := c.isLt
  have hd := d.isLt
  show (a ++ b ++ c ++ d).toNat = _
  rw [BitVec.toNat_append, BitVec.toNat_append, BitVec.toNat_append, ← Nat.shiftLeft_add_eq_or_of_lt hb,
    ← Nat.shiftLeft_add_eq_or_of_lt hc, ← Nat.shiftLeft_add_eq_or_of_lt hd]
  simp only [Nat.shiftLeft_eq]
  omega

/-- Settles O47. -/
theorem memoryPrimitivesActByteByByte : Obligations.MemoryPrimitivesActByteByByte := by
  refine ⟨fun m addr n k => ⟨memRead_length m addr n, memRead_getElem? m addr⟩, fun m addr raw hm hlen => ?_,
    fun m addr => ?_⟩
  · exact ⟨memWrite_wf raw hm hlen, fun k hk => memWrite_read_inside raw hm hlen hk,
      fun other hout => memWrite_read_outside raw hm hlen hout⟩
  · rw [memRead_four, wordOfList, wordOfBytes_toNat]

/-! A table word where the step fetches -/

theorem withFetchWord_pc_le (s : State) (nbits w : Nat) : (s.withFetchWord nbits w).pc.toNat ≤ 65532 := by
  show (if Config.lastFetch < s.pc.toNat then 0#16 else s.pc).toNat ≤ 65532
  split_ifs with h
  · decide
  · exact Nat.le_of_not_lt h

theorem withFetchWord_mem (s : State) (nbits w : Nat) :
    (s.withFetchWord nbits w).mem = memWrite s.mem (s.withFetchWord nbits w).pc.toNat (tableBytes nbits w) := rfl

theorem bytesAtPc_withFetchWord {s : State} (hm : s.mem.wf = true) (nbits w : Nat) :
    bytesAtPc (s.withFetchWord nbits w) = tableBytes nbits w := by
  have hpc := withFetchWord_pc_le s nbits w
  have hlen : (tableBytes nbits w).length = 4 := rfl
  have hread {k : Nat} (hk : k < (tableBytes nbits w).length) :
      (s.withFetchWord nbits w).mem.read ((s.withFetchWord nbits w).pc.toNat + k) = (tableBytes nbits w)[k] := by
    rw [withFetchWord_mem]
    exact memWrite_read_inside _ hm (by omega) hk
  rw [bytesAtPc, hread (k := 1) (by omega), hread (k := 2) (by omega), hread (k := 3) (by omega)]
  exact congrArg (· :: _) (hread (k := 0) (by omega))

/-- Settles O7: the placed bytes are the ones at `pc`, and every four bytes decode. -/
theorem placedTableWordRuns : Obligations.PlacedTableWordRuns := by
  intro s w hm
  obtain ⟨i, hi⟩ : ∃ i, decode (tableBytes 32 w) = .ok i := Memory.decode_four_ok _ _ _ _
  refine ⟨i, by rw [decodeTableWord, hi]; rfl, Memory.step_of_aboutToRun ⟨rfl, withFetchWord_pc_le s 32 w, ?_⟩⟩
  rw [bytesAtPc_withFetchWord hm, hi]

/-! A register written and nothing else -/

/-- Committing one register write (R136), from a state that a request or a draw has made of `s` or from `s` itself. -/
theorem writesReg_commit {env : State → State → Prop} {s s₀ : State} {r : RegAddr} {v : Word16} {P : Word16 → Prop}
    (hregs : s₀.regs = s.regs) (hmem : s₀.mem = s.mem) (hstatus : sameStatus s s₀) (hP : P v)
    (henv : env s (commit s₀ ⟨some (r, v), none, nextPc s.pc, false⟩)) :
    WritesReg env s r P (.next (commit s₀ ⟨some (r, v), none, nextPc s.pc, false⟩)) := by
  have hread (q : RegAddr) : readReg (commit s₀ ⟨some (r, v), none, nextPc s.pc, false⟩) q =
      if q = r then v else readReg s q := by
    rw [readReg_commit, ← readReg_congr hregs q]
  refine ⟨_, rfl, ?_, rfl, fun q hq => ?_, fun addr => congrArg (Memory.read · addr) hmem, hstatus, henv⟩
  · rw [hread, if_pos rfl]
    exact hP
  · rw [hread, if_neg hq]

theorem writesReg_completeWrite (s : State) (r : RegAddr) {v : Word16} {P : Word16 → Prop} (hP : P v) :
    WritesReg sameEnv s r P (completeWrite s r v) :=
  writesReg_commit rfl rfl ⟨rfl, rfl, rfl, rfl⟩ hP ⟨rfl, rfl, rfl, rfl⟩

/-! The moves -/

/-- Settles O49. -/
theorem setAndCopWriteTheWholeValue : Obligations.SetAndCopWriteTheWholeValue := by
  intro fa fb r a l s
  rw [exec_set, exec_cop]
  exact ⟨writesReg_completeWrite s r rfl, writesReg_completeWrite s r rfl⟩

theorem zext16_toNat (b : Byte) : (zext16 b).toNat = b.toNat := by
  have hlt := b.isLt
  rw [zext16, BitVec.toNat_setWidth]
  omega

theorem lowByte_toNat (v : Word16) : (lowByte v).toNat = v.toNat % 256 := by
  rw [lowByte, BitVec.extractLsb'_toNat, Nat.shiftRight_zero]

/-- Settles O50. -/
theorem lodReadsOneByte : Obligations.LodReadsOneByte := by
  intro fa fb r a s
  rw [exec_lod]
  exact writesReg_completeWrite s r (zext16_toNat _)

/-- The state a `SAV` leaves (R256). -/
theorem exec_sav_next (fa fb : Bool) (r a : RegAddr) (s : State) :
    exec (.sav fa fb r a) s = .next { s with
      mem := s.mem.write (readReg s a).toNat (lowByte (readReg s r)), pc := nextPc s.pc } := rfl

/-- Settles O51. -/
theorem savStoresOneByte : Obligations.SavStoresOneByte := by
  intro fa fb r a s hm
  refine ⟨_, exec_sav_next fa fb r a s, rfl, ?_, fun addr haddr => ?_, fun _ => rfl, ⟨rfl, rfl, rfl, rfl⟩,
    ⟨rfl, rfl, rfl, rfl⟩, Memory.wf_write hm (readReg s a).isLt _⟩
  · rw [read_write hm, if_pos rfl, lowByte_toNat]
  · rw [read_write hm, if_neg haddr]

/-- Settles O52: the `SAV` keeps the registers, so the `LOD` reads at the address just written. -/
theorem loadAfterSaveReadsTheByte : Obligations.LoadAfterSaveReadsTheByte := by
  intro fa fb fa' fb' r a r' a' s t hm haddr hexec
  obtain ⟨t', hsav, -, hbyte, -, hregs, -⟩ := savStoresOneByte fa fb r a s hm
  obtain rfl := Host.Outcome.next.inj (hexec.symm.trans hsav)
  rw [exec_lod]
  refine writesReg_completeWrite t r' ?_
  rw [zext16_toNat, hregs a', haddr, hbyte]

/-- Settles O53: the `SAV` leaves the block Running at the default next address, over the memory it wrote. -/
theorem savedByteIsFetchedNext : Obligations.SavedByteIsFetchedNext := by
  intro fa fb r a s t hm habout hstep next byte
  obtain rfl := Host.Outcome.next.inj ((Steps.exec_of_step habout hstep).symm.trans (exec_sav_next fa fb r a s))
  obtain ⟨hrun, -, -⟩ := habout
  have hpc : (nextPc s.pc).toNat = next := by
    rw [nextPc, BitVec.toNat_add]
    rfl
  refine ⟨fun hle => ?_, fun hlt => Steps.step_takesOutOfBounds hrun (hpc.symm ▸ hlt)⟩
  obtain ⟨i, hi⟩ := Memory.decode_four_ok (byte 0) (byte 1) (byte 2) (byte 3)
  refine ⟨i, hi, Memory.step_of_aboutToRun ⟨hrun, hpc.symm ▸ hle, ?_⟩⟩
  have hbyte (k : Nat) : (s.mem.write (readReg s a).toNat (lowByte (readReg s r))).read (next + k) = byte k :=
    read_write hm _ _ _
  simp only [bytesAtPc, hpc]
  rw [hbyte 1, hbyte 2, hbyte 3, ← hi]
  exact congrArg (fun b => decode [b, byte 1, byte 2, byte 3]) (hbyte 0)

end Sys2Proof.Proofs.Access
end

section
/-! The ALU (R139 to R142, R170 to R229): each result as a number or bit by bit, and its way into the register. -/

namespace Sys2Proof.Proofs.Arith

open Sys2Proof.Machine Sys2Proof.Safety

/-- Settles O38. -/
theorem opndCutsToTheLowByte : Obligations.OpndCutsToTheLowByte := by
  intro v w
  cases w with
  | true => exact (Access.zext16_toNat _).trans (Access.lowByte_toNat v)
  | false => rfl

/-- An ALU result that is no fault is written and nothing else (R136). -/
theorem writesReg_finishAlu {s : State} {r : RegAddr} {res : AluResult} {v : Word16} {P : Word16 → Prop}
    (hres : res = .ok v) (hP : P v) : WritesReg sameEnv s r P (finishAlu s r res) := by
  rw [hres]
  exact Access.writesReg_completeWrite s r hP

/-! Relations -/

theorem truth16_toNat (holds : Bool) : (truth16 holds).toNat = if holds = true then 65535 else 0 := by
  cases holds <;> rfl

/-- A relational sentinel for a test that decides `p` (R170). -/
theorem truth16_toNat_of_iff {holds : Bool} {p : Prop} [Decidable p] (h : holds = true ↔ p) :
    (truth16 holds).toNat = if p then 65535 else 0 := by
  rw [truth16_toNat]
  exact if_congr h rfl rfl

/-- Settles O39. -/
theorem relationalWritesAllOnesOrZero : Obligations.RelationalWritesAllOnesOrZero := by
  intro fa fb fc r a b s A B
  rw [exec_equ, exec_neq, exec_gtn, exec_ltn]
  refine ⟨writesReg_finishAlu rfl (truth16_toNat_of_iff ?_), writesReg_finishAlu rfl (truth16_toNat_of_iff ?_),
    writesReg_finishAlu rfl (truth16_toNat_of_iff ?_), writesReg_finishAlu rfl (truth16_toNat_of_iff ?_)⟩
  · rw [beq_iff_eq, ← BitVec.toNat_inj]
  · rw [bne_iff_ne, ne_eq, ← BitVec.toNat_inj]
  · rw [BitVec.ult_eq_decide, decide_eq_true_iff]
  · rw [BitVec.ult_eq_decide, decide_eq_true_iff]

/-! Arithmetic modulo 65536 -/

section
variable (A B : Word16)

theorem toNat_add_int : ((A + B).toNat : Int) = ((A.toNat : Int) + B.toNat) % 65536 := by
  rw [BitVec.toNat_add]
  rfl

theorem toNat_sub_int : ((A - B).toNat : Int) = ((A.toNat : Int) - B.toNat) % 65536 := by
  have hB := B.isLt
  rw [BitVec.toNat_sub]
  omega

theorem toNat_mul_int : ((A * B).toNat : Int) = ((A.toNat : Int) * B.toNat) % 65536 := by
  rw [BitVec.toNat_mul]
  rfl

end

/-- Settles O40. -/
theorem arithmeticWrapsModulo65536 : Obligations.ArithmeticWrapsModulo65536 := by
  intro fa fb fc r a b s A B
  rw [exec_add, exec_sub, exec_mlt, exec_inc, exec_dec]
  exact ⟨writesReg_finishAlu rfl (toNat_add_int _ _), writesReg_finishAlu rfl (toNat_sub_int _ _),
    writesReg_finishAlu rfl (toNat_mul_int _ _), writesReg_finishAlu rfl (toNat_add_int _ 1#16),
    writesReg_finishAlu rfl (toNat_sub_int _ 1#16)⟩

/-! Division -/

/-- Settles O41: the quotient and remainder of the unsigned numbers. -/
theorem divisionGivesQuotientAndRemainder : Obligations.DivisionGivesQuotientAndRemainder := by
  intro fa fb fc r a b s A B hB
  have hne : opnd (readReg s b) fa ≠ 0#16 := fun h => hB (congrArg BitVec.toNat h)
  rw [exec_div, exec_mod]
  exact ⟨A / B, A % B, (Nat.div_add_mod A B).symm, Nat.mod_lt A (Nat.pos_of_ne_zero hB),
    writesReg_finishAlu (aluDiv_of_ne hne) BitVec.toNat_udiv, writesReg_finishAlu (aluMod_of_ne hne) BitVec.toNat_umod⟩

theorem takesDivideByZero {s : State} (hpc : s.pc.toNat ≤ 65532) (r : RegAddr) {res : AluResult}
    (hres : res = .error .divideByZero) : TakesFault sameEnv s .divideByZero (wordAtPc s) (finishAlu s r res) := by
  rw [hres, finishAlu_error]
  exact Steps.takesFault_raiseFault rfl rfl rfl (Steps.rawAtPc_eq_wordAtPc hpc) ⟨rfl, rfl, rfl, rfl⟩

/-- Settles O42. -/
theorem divisionByZeroTakesTheFault : Obligations.DivisionByZeroTakesTheFault := by
  intro fa fb fc r a b s hpc hzero
  rw [exec_div, exec_mod]
  exact ⟨takesDivideByZero hpc r (aluDiv_of_eq hzero), takesDivideByZero hpc r (aluMod_of_eq hzero)⟩

/-! Bits and shifts -/

/-- Settles O43. -/
theorem bitwiseActsOnEveryBit : Obligations.BitwiseActsOnEveryBit := by
  intro fa fb fc r a b s A B
  rw [exec_eor, exec_and, exec_xor, exec_not]
  refine ⟨writesReg_finishAlu rfl fun k _ => BitVec.getLsbD_or, writesReg_finishAlu rfl fun k _ => BitVec.getLsbD_and,
    writesReg_finishAlu rfl fun k _ => BitVec.getLsbD_xor, writesReg_finishAlu rfl fun k hk => ?_⟩
  rw [BitVec.getLsbD_not, decide_eq_true hk, Bool.true_and]

/-- Settles O44. -/
theorem logicalShiftsByTheWholeAmount : Obligations.LogicalShiftsByTheWholeAmount := by
  intro fa fb fc r a b s A B
  rw [exec_lsh, exec_rsh]
  refine ⟨writesReg_finishAlu rfl ?_, writesReg_finishAlu rfl ?_⟩
  · rw [apply_ite BitVec.toNat, BitVec.toNat_shiftLeft, Nat.shiftLeft_eq]
    rfl
  · rw [apply_ite BitVec.toNat, BitVec.toNat_ushiftRight, Nat.shiftRight_eq_div_pow]
    rfl

/-- The ring of R228: bit 15 comes round to bit 0, the others move up. -/
theorem getLsbD_rotate (A : Word16) {k : Nat} (hk : k < 16) :
    ((A <<< 1) ||| (A >>> 15)).getLsbD ((k + 1) % 16) = A.getLsbD k := by
  rw [BitVec.getLsbD_or, BitVec.getLsbD_shiftLeft, BitVec.getLsbD_ushiftRight]
  by_cases htop : k = 15
  · subst htop
    simp
  · rw [Nat.mod_eq_of_lt (by omega : k + 1 < 16), BitVec.getLsbD_of_ge A (15 + (k + 1)) (by omega)]
    simp [show k + 1 < 16 by omega]

/-- Settles O45. -/
theorem rotMovesEveryBitUpByOne : Obligations.RotMovesEveryBitUpByOne := by
  intro fa fb r a s A
  rw [exec_rot]
  exact writesReg_finishAlu rfl fun k hk => getLsbD_rotate A hk

theorem getLsbD_carryFill (fc : Bool) {k : Nat} (hk : k < 16) : (carryFill fc).getLsbD k = fc := by
  cases fc with
  | true =>
    show (BitVec.allOnes 16).getLsbD k = true
    rw [BitVec.getLsbD_allOnes, decide_eq_true hk]
  | false => exact BitVec.getLsbD_zero

/-- The shift of R229: the fill comes in below the amount. -/
theorem getLsbD_cascade (A : Word16) (fc : Bool) {n k : Nat} (hn : n < 16) (hk : k < 16) :
    ((A <<< n) ||| (carryFill fc >>> (16 - n))).getLsbD k = if k < n then fc else A.getLsbD (k - n) := by
  rw [BitVec.getLsbD_or, BitVec.getLsbD_shiftLeft, BitVec.getLsbD_ushiftRight]
  split_ifs with h
  · rw [getLsbD_carryFill fc (by omega)]
    simp [h]
  · rw [BitVec.getLsbD_of_ge (carryFill fc) _ (by omega)]
    simp [h, hk]

/-- Settles O46: an amount of 16 or more leaves nothing but the fill. -/
theorem casFillsVacatedBitsWithTheFlag : Obligations.CasFillsVacatedBitsWithTheFlag := by
  intro fa fb fc r a b s A B
  rw [exec_cas]
  refine writesReg_finishAlu rfl fun k hk => ?_
  by_cases hB : 16 ≤ B
  · rw [if_pos hB, getLsbD_carryFill fc hk, if_pos (by omega)]
  · rw [if_neg hB, getLsbD_cascade A fc (Nat.lt_of_not_le hB) hk]

end Sys2Proof.Proofs.Arith
end

section
/-! The control instructions that complete in every state (R150, R151, R153). -/

namespace Sys2Proof.Proofs.Branch

open Sys2Proof.Machine Sys2Proof.Safety

/-- Settles O34. -/
theorem nopOnlyAdvances : Obligations.NopOnlyAdvances := by
  intro s
  rw [exec_nop]
  exact Control.complete_onlyMovesPc s (nextPc s.pc)

/-- Settles O35. -/
theorem hltOnlyHalts : Obligations.HltOnlyHalts := by
  intro s
  rw [exec_hlt]
  exact ⟨_, complete_next s _, rfl, rfl, fun _ => rfl, fun _ => rfl, rfl, rfl, rfl, rfl, rfl, rfl, rfl⟩

/-- The words of `BRA` (R97 shape BR): flags `B` and `C` and the last byte are free. -/
theorem decode_bra {raw0 : Byte} (h : raw0.toNat / 8 = 2) (raw1 raw2 raw3 : Byte) :
    decode [raw0, raw1, raw2, raw3] = .ok (.bra (decide (raw0.toNat / 4 % 2 = 1)) raw1 raw2) := by
  rw [← Encoding.rawFlagA_eq]
  exact Memory.decode_of_opcode (Encoding.opcodeOfNat_of_code (op := .bra) h) raw1 raw2 raw3

/-- `BRA` only sets `pc`, to `x[r]` or the default next address by its prepared condition (R153). -/
theorem exec_bra_onlyMovesPc (s : State) (fa : Bool) (r a : RegAddr) :
    OnlyMovesPc s (if opnd (readReg s a) fa ≠ 0#16 then readReg s r else nextPc s.pc) (exec (.bra fa r a) s) := by
  rw [exec_bra]
  exact Control.complete_onlyMovesPc s _

theorem exec_bra_taken {s : State} {fa : Bool} {a : RegAddr} (h : opnd (readReg s a) fa ≠ 0#16) (r : RegAddr) :
    OnlyMovesPc s (readReg s r) (exec (.bra fa r a) s) := by
  have hmove := exec_bra_onlyMovesPc s fa r a
  rwa [if_pos h] at hmove

theorem exec_bra_not_taken {s : State} {fa : Bool} {a : RegAddr} (h : opnd (readReg s a) fa = 0#16) (r : RegAddr) :
    OnlyMovesPc s (nextPc s.pc) (exec (.bra fa r a) s) := by
  have hmove := exec_bra_onlyMovesPc s fa r a
  rwa [if_neg (not_not_intro h)] at hmove

/-- Settles O37: as for `JMP`, the step after a taken branch is the one that meets the bound of the fetch. -/
theorem braBranchesOnThePreparedCondition : Obligations.BraBranchesOnThePreparedCondition := by
  refine ⟨fun raw0 raw1 raw2 raw3 h => decode_bra h raw1 raw2 raw3, fun s fa r a h => exec_bra_taken h r,
    fun s fa r a h => exec_bra_not_taken h r, ?_⟩
  intro s t u fa r a hrun htaken hexec htarget hstep
  have hmove : OnlyMovesPc s (readReg s r) (.next t) := hexec ▸ exec_bra_taken htaken r
  obtain rfl := Host.Outcome.next.inj (hstep.symm.trans (Control.step_outOfBounds_of_onlyMovesPc hmove hrun htarget))
  obtain ⟨t', hnext, hpc, -⟩ := hmove
  obtain rfl := Host.Outcome.next.inj hnext
  exact ⟨rfl, hpc, rfl⟩

end Sys2Proof.Proofs.Branch
end

section
/-! The status query, the data channel and what the boundary shows (R270 to R280, R300). -/

namespace Sys2Proof.Proofs.Channel

open Sys2Proof.Machine Sys2Proof.Safety Sys2Proof.Proofs.Effects

/-- Settles O60. -/
theorem everyLinedUpAnswerIsGiven : Obligations.EveryLinedUpAnswerIsGiven := by
  intro s req answer rest h
  rw [portResponse, h]

/-! The draw of `QOP` -/

theorem qopValue_lined_up {s : State} {value : Word16} {rest : List Word16} (h : s.qopAnswers = value :: rest)
    (fa fb fc : Bool) : qopValue s fa fb fc = value := by
  rw [qopValue, h]

theorem qopValue_free {s : State} (h : s.qopAnswers = []) (fa fb fc : Bool) :
    qopValue s fa fb fc = Config.qopStatus s.draws fa fb fc := by
  rw [qopValue, h]

/-- Settles O54. -/
theorem qopWritesTheDrawnValue : Obligations.QopWritesTheDrawnValue := by
  intro fa fb fc r s oneDraw
  have hwrites {P : Word16 → Prop} (hP : P (qopValue s fa fb fc)) : WritesReg oneDraw s r P (exec (.qop fa fb fc r) s) := by
    rw [exec_qop, completeWrite_next]
    exact Access.writesReg_commit (drawQop_regs s) (drawQop_mem s) (Encoding.sameStatus_drawQop s) hP ⟨rfl, rfl, rfl, rfl⟩
  exact ⟨fun value rest h => hwrites (qopValue_lined_up h fa fb fc), fun h => hwrites (qopValue_free h fa fb fc)⟩

/-! Requests -/

/-- A request answered `Ok(data)` whose data is stored (R277 to R279). -/
theorem writesReg_transact {s : State} {req : PortRequest} {data : Word16} (h : portResponse s req = .ok data)
    (r : RegAddr) : WritesReg (sent req) s r (fun v => v = data) (transact s req (storeData r)) := by
  rw [transact_ok h, storeData_eq]
  exact Access.writesReg_commit (sendRequest_regs s req) (sendRequest_mem s req) (Encoding.sameStatus_sendRequest s req) rfl
    ⟨rfl, rfl, rfl, rfl⟩

/-- Settles O55. -/
theorem channelAnswerIsWritten : Obligations.ChannelAnswerIsWritten := by
  intro fa fb fc r a b s data query configure read
  rw [exec_qdc, exec_cdc, exec_rea]
  exact ⟨fun h => writesReg_transact h r, fun h => writesReg_transact h r, fun h => writesReg_transact h r⟩

/-- Settles O56. -/
theorem wriSendsAndWritesNoRegister : Obligations.WriSendsAndWritesNoRegister := by
  intro r a s data write h
  exact ⟨_, (exec_wri r a s).trans (transact_ok h _), rfl, fun _ => rfl, fun _ => rfl, ⟨rfl, rfl, rfl, rfl⟩,
    ⟨rfl, rfl, rfl, rfl⟩⟩

theorem exec_of_fail {s : State} {i : Instr} {req : PortRequest} (hreq : requestOf s i = some req)
    (hfail : portResponse s req = .fail) : exec i s = .next (raiseFault (sendRequest s req) .portFault) := by
  rw [exec_eq_settle, resultOf_of_requestOf hreq, hfail, afterDraw_of_requestOf hreq]
  rfl

/-- Settles O57. -/
theorem failedRequestTakesTheFault : Obligations.FailedRequestTakesTheFault := by
  intro i s req hpc hreq hfail
  have hraises : Raises s i .portFault := raises_portFault.2 ((portFails_iff s i).2 ⟨req, hreq, hfail⟩)
  have hraw := Steps.faultRaw_of_raises hpc hraises
  rw [afterDraw_of_requestOf hreq] at hraw
  rw [exec_of_fail hreq hfail]
  exact Steps.takesFault_raiseFault (sendRequest_regs s req) (sendRequest_pc s req) (sendRequest_mem s req) hraw
    ⟨rfl, rfl, rfl, rfl⟩

/-- A data-channel instruction sends its request whatever the port answers (R71, R272). -/
theorem exec_sends {s : State} {i : Instr} {req : PortRequest} (h : requestOf s i = some req) :
    ∃ t, exec i s = .next t ∧ t.portLog = req :: s.portLog := by
  obtain ⟨hlog, -⟩ := Steps.port_of_exec (exec_eq_settle i s)
  exact ⟨_, exec_eq_settle i s, by rw [hlog, afterDraw_of_requestOf h, sendRequest_portLog]⟩

/-- Settles O59. -/
theorem requestsCarryTheirCodes : Obligations.RequestsCarryTheirCodes := by
  intro fa fb fc r a b s sends
  have hsends {i : Instr} {req : PortRequest} (h : requestOf s i = some req) : sends (requestOutputs req) i := by
    obtain ⟨t, hexec, hlog⟩ := exec_sends h
    exact ⟨t, req, hexec, hlog, rfl⟩
  exact ⟨hsends (i := .qdc fa fb fc r a b) rfl, hsends (i := .cdc fa fb fc r a b) rfl, hsends (i := .rea r a) rfl,
    hsends (i := .wri r a) rfl⟩

/-- Settles O58. -/
theorem statusOutputsShowTheRecord : Obligations.StatusOutputsShowTheRecord := by
  intro s
  have hcode {c : FaultCause} (h : s.faultCause = c) : (statusOutputs s).faultCause = c.code := congrArg FaultCause.code h
  exact ⟨hcode, hcode, hcode, hcode, hcode, rfl, rfl⟩

end Sys2Proof.Proofs.Channel
end
